-- ==== Sys2Proof/Word.lean ====
section
/-! DEFINITION. The words of the block: the 40-bit command word, the 32-bit operand, the byte of
the frame buffer (30_encoding.md R50, 00_scope.md R6). -/

namespace Sys2Proof

/-- A byte of the frame buffer (10_state.md R16). -/
abbrev Byte := BitVec 8

/-- A command word CW: exactly 40 bits, bit 39 the most significant (30_encoding.md R50; CW_LEN of
00_scope.md R6). -/
abbrev CommandWord := BitVec 40

/-- The operand `arg` of a command: OPW = 32 bits (00_scope.md R6). -/
abbrev Operand := BitVec 32

/-- The field index `fld` of a command: 4 bits (30_encoding.md R50). -/
abbrev FieldIndex := BitVec 4

end Sys2Proof
end

