-- ==== Sys2Proof/Syntax.lean ====
section
/-! DEFINITION. The commands of the block (30_encoding.md R52), the FieldSpec record
(10_state.md R19) and the lines of the assembler (30_encoding.md R60). -/

namespace Sys2Proof

/-- The eight commands, one constructor per row of the opcode map (30_encoding.md R52), with the
operands the row's pattern leaves open. -/
inductive Instr where
  /-- RESET: zero-fill the frame buffer (41_frame_record.md R91). -/
  | reset
  /-- SETEN arg: set the logical enable state (41_frame_record.md R93). -/
  | seten (arg : Operand)
  /-- SETCMD arg: set the logical pedal percentage (41_frame_record.md R94). -/
  | setcmd (arg : Operand)
  /-- RENDER: marshal the logical state into the frame buffer (41_frame_record.md R96). -/
  | render
  /-- GETPER: read the retransmission period (42_descriptor.md R110). -/
  | getper
  /-- GETID: read the arbitration identifier (42_descriptor.md R111). -/
  | getid
  /-- ENCU fld, arg: encode an unsigned raw value into a field (40_codec.md R75). -/
  | encu (fld : FieldIndex) (arg : Operand)
  /-- ENCP fld, arg: encode a physical value or a variant into a field (40_codec.md R76). -/
  | encp (fld : FieldIndex) (arg : Operand)
  deriving DecidableEq, Repr

/-- The byte order of a FieldSpec (10_state.md R19). `motorola` is the spec's label for "not
intel"; only `intel` is admitted. -/
inductive ByteOrder where
  | intel
  | motorola
  deriving DecidableEq, Repr

/-- Which encoder a field uses (10_state.md R19): the numeric transform, or the fixed mapping of an
enum, whose `codes[t]` is the raw code of the variant with tag t (the names are documentation). -/
inductive FieldKind where
  | numeric
  | enum (codes : List Nat) (names : List String)
  deriving DecidableEq, Repr

/-- A FieldSpec, member by member as in the table of 10_state.md R19. `precision` and `offset` are
exact rationals (00_scope.md R8). -/
structure FieldSpec where
  /-- the field's name, documentation only -/
  name : String
  /-- frame bit of the field's least significant bit -/
  bitOffset : Nat
  /-- number of bits -/
  bitLength : Nat
  /-- only `intel` is admitted (R22) -/
  byteOrder : ByteOrder
  /-- only `false` is admitted (R22, 40_codec.md R81) -/
  signed : Bool
  /-- least physical value, used by the field's setter only -/
  physMin : Int
  /-- greatest physical value, used by the field's setter only -/
  physMax : Int
  /-- physical units per raw count -/
  precision : Rat
  /-- the physical value that encodes as raw 0 -/
  offset : Rat
  /-- the encoder -/
  kind : FieldKind
  deriving DecidableEq, Repr

/-- A numeric or named operand of the assembler (30_encoding.md R60). -/
inductive AsmOperand where
  | number (v : Int)
  | disable
  | enable
  deriving DecidableEq, Repr

/-- One line of the textual form (30_encoding.md R60), before the range checks of
`AsmLine.wellFormed`. There are no pseudo-instructions (R61): one constructor per command, and
`.word`. -/
inductive AsmLine where
  | reset
  | seten (v : AsmOperand)
  | setcmd (v : Int)
  | render
  | getper
  | getid
  | encu (i raw : Int)
  | encp (i : Int) (v : AsmOperand)
  | word (w : Nat)
  deriving DecidableEq, Repr

end Sys2Proof
end

