-- ==== Sys2Proof/Decode.lean ====
section
/-! DEFINITION. Decoding and encoding of command words (30_encoding.md R50 to R58), and the opcode
table of R52. -/

namespace Sys2Proof

/-- CW[39:36], the opcode (30_encoding.md R50). -/
def opField (w : CommandWord) : BitVec 4 := w.extractLsb' 36 4

/-- CW[35:32], the field index (30_encoding.md R50). -/
def fldField (w : CommandWord) : FieldIndex := w.extractLsb' 32 4

/-- CW[31:0], the operand (30_encoding.md R50). -/
def argField (w : CommandWord) : Operand := w.extractLsb' 0 32

/-- `CW = op ‖ fld ‖ arg` (30_encoding.md R51). -/
def assembleWord (op : BitVec 4) (fld : FieldIndex) (arg : Operand) : CommandWord :=
  op ++ fld ++ arg

/-- Why a word is Illegal (30_encoding.md R55): a reserved opcode, or a non-zero bit in a
must-be-zero field of R54. Both raise IllegalCommand; the names are the model's (log entry 10). -/
inductive DecodeReject where
  | reservedOpcode (op : BitVec 4)
  | mustBeZero (op : BitVec 4)
  deriving DecidableEq, Repr

/-- A command without operands: all of CW[35:0] must be zero (30_encoding.md R54). -/
def decodeBare (w : CommandWord) (i : Instr) : Except DecodeReject Instr :=
  if fldField w = 0 ∧ argField w = 0 then .ok i else .error (.mustBeZero (opField w))

/-- A command with an operand and no field index: `fld` must be zero (30_encoding.md R54). -/
def decodeArg (w : CommandWord) (i : Operand → Instr) : Except DecodeReject Instr :=
  if fldField w = 0 then .ok (i (argField w)) else .error (.mustBeZero (opField w))

/-- `decode(CW)` of 30_encoding.md R58: total on any 40-bit word, reads no state. -/
def decode (w : CommandWord) : Except DecodeReject Instr :=
  match (opField w).toNat with
  | 0x1 => decodeBare w .reset
  | 0x2 => decodeArg w .seten
  | 0x3 => decodeArg w .setcmd
  | 0x4 => decodeBare w .render
  | 0x5 => decodeBare w .getper
  | 0x6 => decodeBare w .getid
  | 0x7 => .ok (.encu (fldField w) (argField w))
  | 0x8 => .ok (.encp (fldField w) (argField w))
  | _ => .error (.reservedOpcode (opField w))

/-- The command word of an instruction, from the patterns of 30_encoding.md R52. -/
def encode : Instr → CommandWord
  | .reset => assembleWord 0x1 0 0
  | .seten arg => assembleWord 0x2 0 arg
  | .setcmd arg => assembleWord 0x3 0 arg
  | .render => assembleWord 0x4 0 0
  | .getper => assembleWord 0x5 0 0
  | .getid => assembleWord 0x6 0 0
  | .encu fld arg => assembleWord 0x7 fld arg
  | .encp fld arg => assembleWord 0x8 fld arg

/-- One row of the opcode map (30_encoding.md R52): a word selects the row when
`CW & mask = match`. -/
structure OpcodeRow where
  mnemonic : String
  matchBits : CommandWord
  mask : CommandWord
  deriving DecidableEq, Repr

/-- A word selects a row (30_encoding.md R52). -/
def OpcodeRow.selects (r : OpcodeRow) (w : CommandWord) : Bool := w &&& r.mask == r.matchBits

/-- The opcode map, row by row as in 30_encoding.md R52 and `opcode_table.json` (R63). -/
def opcodeTable : List OpcodeRow :=
  [ ⟨"RESET", 0x1000000000#40, 0xFFFFFFFFFF#40⟩,
    ⟨"SETEN", 0x2000000000#40, 0xFF00000000#40⟩,
    ⟨"SETCMD", 0x3000000000#40, 0xFF00000000#40⟩,
    ⟨"RENDER", 0x4000000000#40, 0xFFFFFFFFFF#40⟩,
    ⟨"GETPER", 0x5000000000#40, 0xFFFFFFFFFF#40⟩,
    ⟨"GETID", 0x6000000000#40, 0xFFFFFFFFFF#40⟩,
    ⟨"ENCU", 0x7000000000#40, 0xF000000000#40⟩,
    ⟨"ENCP", 0x8000000000#40, 0xF000000000#40⟩ ]

/-- The mnemonic of a command (30_encoding.md R52, R60). -/
def Instr.mnemonic : Instr → String
  | .reset => "RESET"
  | .seten _ => "SETEN"
  | .setcmd _ => "SETCMD"
  | .render => "RENDER"
  | .getper => "GETPER"
  | .getid => "GETID"
  | .encu _ _ => "ENCU"
  | .encp _ _ => "ENCP"

/-- The command word of an instruction's bits as `opcode_table.json` numbers them: the table's one
word per row is the whole 40-bit CW, bit 0 its least significant bit; bits at or above `nbits`
are 0. -/
def tableWord (nbits w : Nat) : CommandWord := BitVec.ofNat 40 (w % 2 ^ nbits)

/-- What the decoder reads from an instruction whose bits are `w` (numbered as the opcode table
numbers them). Commands have a fixed length of 40 bits (30_encoding.md R57): more bits are no
command (log entry 17). -/
def decodeTableWord (nbits w : Nat) : Option Instr :=
  if nbits ≤ 40 then (decode (tableWord nbits w)).toOption else none

end Sys2Proof
end

