-- ==== Sys2Proof/WellFormed.lean ====
section
/-! DEFINITION. The checks on what a host or a builder may write down: well-formedness of a FieldSpec
table (10_state.md R22) and the operand ranges of an assembler line (30_encoding.md R60). A term of
`Instr` needs no check: the widths of its operands are its type (R50), and every value of them is
encodable. -/

namespace Sys2Proof

/-- 10_state.md R22 (a): `1 <= bit_length <= 64`. -/
def FieldSpec.lengthOk (f : FieldSpec) : Bool := 1 ≤ f.bitLength && f.bitLength ≤ 64

/-- 10_state.md R22 (b): the field fits a buffer of `frameLen` bytes (the bound of
20_memory.md R35). -/
def FieldSpec.spanOk (frameLen : Nat) (f : FieldSpec) : Bool :=
  (f.bitOffset + f.bitLength + 7) / 8 ≤ frameLen

/-- 10_state.md R22 (c): only the intel order is admitted. -/
def FieldSpec.orderOk (f : FieldSpec) : Bool := f.byteOrder == .intel

/-- 10_state.md R22 (d) and 40_codec.md R81: a signed field is refused. -/
def FieldSpec.unsignedOk (f : FieldSpec) : Bool := !f.signed

/-- 10_state.md R22 (e): the precision is not 0. -/
def FieldSpec.precisionOk (f : FieldSpec) : Bool := f.precision ≠ 0

/-- 10_state.md R22 (f): the physical range is not empty. -/
def FieldSpec.rangeOk (f : FieldSpec) : Bool := f.physMin ≤ f.physMax

/-- 10_state.md R22 (g): an enum has at least one code, at most 2^32, and each code fits the
field. -/
def FieldSpec.codesOk (f : FieldSpec) : Bool :=
  match f.kind with
  | .numeric => true
  | .enum codes _ =>
    codes ≠ [] && codes.length ≤ 2 ^ 32 && codes.all (fun c => c < 2 ^ f.bitLength)

/-- A FieldSpec is well-formed for a buffer of `frameLen` bytes: all of 10_state.md R22 (a) to
(g). -/
def FieldSpec.wellFormed (frameLen : Nat) (f : FieldSpec) : Bool :=
  f.lengthOk && f.spanOk frameLen && f.orderOk && f.unsignedOk && f.precisionOk && f.rangeOk
    && f.codesOk

/-- A FieldSpec table with the proof that every entry is well-formed: "a table that is not WF is not
a configuration of this block" (10_state.md R22). Fields may overlap. -/
structure FieldTable (frameLen : Nat) where
  entries : List FieldSpec
  wf : entries.all (FieldSpec.wellFormed frameLen) = true

/-- A word operand range: `0 .. 2^32 - 1` (30_encoding.md R60). -/
def unsignedRange (v : Int) : Bool := 0 ≤ v && v < 2 ^ 32

/-- A signed operand range: `-2^31 .. 2^31 - 1` (30_encoding.md R60). -/
def signedRange (v : Int) : Bool := -2 ^ 31 ≤ v && v < 2 ^ 31

/-- A field index operand: `0 .. 15` (30_encoding.md R60). -/
def indexRange (i : Int) : Bool := 0 ≤ i && i < 16

/-- Entry `i` of the table exists and is an enum field. -/
def isEnumField (fields : List FieldSpec) (i : Int) : Bool :=
  match fields[i.toNat]? with
  | some f => (match f.kind with | .enum _ _ => true | .numeric => false)
  | none => false

/-- The operand ranges of each line of 30_encoding.md R60. In ENCP the names DISABLE and ENABLE are
admitted for an enum field only. -/
def AsmLine.wellFormed (fields : List FieldSpec) : AsmLine → Bool
  | .reset => true
  | .seten (.number v) => unsignedRange v
  | .seten .disable => true
  | .seten .enable => true
  | .setcmd v => signedRange v
  | .render => true
  | .getper => true
  | .getid => true
  | .encu i raw => indexRange i && unsignedRange raw
  | .encp i (.number v) => indexRange i && (-2 ^ 31 ≤ v && v < 2 ^ 32)
  | .encp i .disable => indexRange i && isEnumField fields i
  | .encp i .enable => indexRange i && isEnumField fields i
  | .word w => w < 2 ^ 40

end Sys2Proof
end

