-- ==== Sys2Proof/Config.lean ====
section
/-! DEFINITION. The parameters of the block with the values this hardware takes
(00_scope.md R6), and the FieldSpec table (10_state.md R20, R21). -/

namespace Sys2Proof.Config

/-- FRAME_LEN: bytes in the frame buffer (00_scope.md R6; conflict C5 is resolved to 8). -/
def frameLen : Nat := 8

/-- ARB_ID: the opaque 32-bit arbitration identifier (10_state.md R17). No rule interprets its
bits. -/
def arbId : BitVec 32 := 0x00000111#32

/-- PERIOD_MS: the retransmission period in milliseconds (10_state.md R18), the spec's one OPEN
parameter (00_scope.md R6). It has no body: only its constancy can be used. Log entry 5. -/
opaque periodMs : BitVec 32

/-- `FIELDS[0]`, brake_pedal_en_ctrl (10_state.md R20). The members an enum field does not use have
the values R20 fixes for them; no rule reads them. -/
def brakePedalEnCtrl : FieldSpec where
  name := "brake_pedal_en_ctrl"
  bitOffset := 0
  bitLength := 8
  byteOrder := .intel
  signed := false
  physMin := 0
  physMax := 1
  precision := 1
  offset := 0
  kind := .enum [0, 1] ["DISABLE", "ENABLE"]

/-- `FIELDS[1]`, brake_pedal_cmd, in percent (10_state.md R21). -/
def brakePedalCmd : FieldSpec where
  name := "brake_pedal_cmd"
  bitOffset := 8
  bitLength := 8
  byteOrder := .intel
  signed := false
  physMin := 0
  physMax := 100
  precision := 1
  offset := 0
  kind := .numeric

/-- FIELDS: the immutable table of this device, carried with its proof of well-formedness
(10_state.md R22, R23). -/
def fields : FieldTable frameLen where
  entries := [brakePedalEnCtrl, brakePedalCmd]
  wf := by decide

/-- N_FIELDS: the number of entries of the table (00_scope.md R6), 2 for this device. -/
def nFields : Nat := fields.entries.length

end Sys2Proof.Config
end

