-- ==== Sys2Proof/Machine/State.lean ====
section
/-! DEFINITION. The state of the block (10_state.md R10), the port events and responses, the machine's
faults and refusals, and the state after hardware reset (R27). -/

namespace Sys2Proof.Machine

/-- The frame buffer's contents: the cells whose byte is not what an unlisted address reads as, at
strictly rising addresses (`Memory.wf`). Log entry 6. -/
abbrev Memory := List Host.Cell

/-- The three command inputs, sampled together in the cycle a command is accepted
(30_encoding.md R51, R62). -/
structure CommandPorts where
  op : BitVec 4
  fld : FieldIndex
  arg : Operand
  deriving DecidableEq, Repr

/-- What the environment may do between two commands (70_reset_and_hazards.md R140): have a command
accepted, or assert rst, with or without a command presented in the same cycle. -/
inductive PortEvent where
  | command (c : CommandPorts)
  | hardwareReset (presented : Option CommandPorts)
  deriving DecidableEq, Repr

/-- A response `(err, data)` (30_encoding.md R59). -/
structure Response where
  err : Bool
  data : BitVec 32
  deriving DecidableEq, Repr

/-- The state of the block: the tuple (EN, CMD, FRAME, FAULT, FCODE) of 10_state.md R10, and two
fields of the model's own, the events the hosts have presented and the responses given (log entries
1 and 2). -/
structure State where
  /-- EN, the tag of the enable variant: 0 DISABLE, 1 ENABLE (R11) -/
  en : BitVec 1
  /-- CMD, the pedal percentage (R12) -/
  cmd : BitVec 8
  /-- FRAME, the frame buffer (R16) -/
  frame : Memory
  /-- FAULT, the sticky fault flag (R14) -/
  fault : Bool
  /-- FCODE, the code of the first fault, 0 when none (R15) -/
  fcode : BitVec 3
  /-- the model's own: events not yet taken, oldest first -/
  pending : List PortEvent
  /-- the model's own: responses given, oldest first -/
  responses : List Response
  deriving DecidableEq, Repr

/-- The four synchronous faults of the block (60_exceptions.md R121). They are TAKEN (a next state):
none of them stops the machine. -/
inductive FaultCode where
  | illegalCommand
  | enumDomain
  | fieldIndex
  | bufferSpan
  deriving DecidableEq, Repr

/-- Why a command ends without its effect: a fault of the block is raised (60_exceptions.md R126),
or the model's own stop for an access outside the frame buffer. -/
inductive Raise where
  | code (c : FaultCode)
  | outside (address : Nat)
  deriving DecidableEq, Repr

/-- What stops the machine. -/
inductive Fault where
  /-- An access to a byte address the frame buffer does not have (20_memory.md R30: 0..7), raised by
  `Memory.load` and `Memory.store` where the requirement `k + n <= FRAME_LEN` of 00_scope.md R8 is
  broken. Safe: the machine stops. ENC's own check (40_codec.md R73) comes first, so no command
  reaches it (log entry 8). -/
  | outsideFrame (address : Nat)
  deriving DecidableEq, Repr

/-- Why an instruction has no meaning. -/
inductive Refusal where
  /-- An instruction of the opcode table without a meaning, named as the table names it. No arm of
  `exec` answers it. Safe. -/
  | notModelled (mnemonic : String)
  deriving DecidableEq, Repr

/-- The outcome of a step. -/
abbrev Result := Host.Outcome State Fault Refusal

/-- The state right after hardware reset: the table of 10_state.md R27, with nothing presented and no
response given ("Reset produces no response", 70_reset_and_hazards.md R140). -/
def State.reset : State where
  en := 0
  cmd := 0
  frame := []
  fault := false
  fcode := 0
  pending := []
  responses := []

end Sys2Proof.Machine
end

