-- ==== Sys2Proof/Machine/Flags.lean ====
section
/-! DEFINITION. The status fields FAULT and FCODE: the codes of the faults and the response data made
from them (60_exceptions.md R121, 30_encoding.md R59). There is no other flag (R134). -/

namespace Sys2Proof.Machine

/-- The code of a fault as FCODE holds it (60_exceptions.md R121). Code 0 means "no fault"; 5 to 7
are unused. -/
def FaultCode.code : FaultCode → BitVec 3
  | .illegalCommand => 1
  | .enumDomain => 2
  | .fieldIndex => 3
  | .bufferSpan => 4

/-- A fault code zero-extended to the 32 bits of a response (30_encoding.md R59). -/
def codeData (c : BitVec 3) : BitVec 32 := c.setWidth 32

/-- FAULT as the one-bit value of the output port (10_state.md R14, R26). -/
def faultBit (fault : Bool) : BitVec 1 := BitVec.ofBool fault

end Sys2Proof.Machine
end

