-- ==== Sys2Proof/Machine/Operands.lean ====
section
/-! DEFINITION. The integer functions of 00_scope.md R8 (sext, zext, clamp, round) and the reading of
the operands of a command (30_encoding.md R53). -/

namespace Sys2Proof.Machine

/-- `sext_32(v)`: the 32-bit pattern read as a two's-complement signed integer (00_scope.md R8). -/
def sext32 (v : BitVec 32) : Int :=
  if v.toNat < 2 ^ 31 then (v.toNat : Int) else (v.toNat : Int) - 2 ^ 32

/-- `zext_N(v)`: as an integer it is v itself (00_scope.md R8). -/
def zext (v : BitVec 32) : Nat := v.toNat

/-- `clamp(v, lo, hi)` for integers with `lo <= hi` (00_scope.md R8). Outside that requirement, which
10_state.md R22 (f) gives for every field of the table, `v < lo` is looked at first (log entry 20). -/
def clamp (v lo hi : Int) : Int := if v < lo then lo else if hi < v then hi else v

/-- `round(n / d)` for `d` not 0: the nearest integer, a tie away from zero (00_scope.md R8, ROUND of
R6). The magnitude is the floor of `|n / d| + 1/2`; the sign is that of the quotient. For `d` = 0,
which 10_state.md R22 (e) rules out for every field of the table, it is 0 (log entry 20). -/
def roundQuotient (n d : Int) : Int :=
  let magnitude : Int := ((2 * n.natAbs + d.natAbs) / (2 * d.natAbs) : Nat)
  if n * d < 0 then -magnitude else magnitude

/-- SETEN's operand: the variant tag, unsigned (30_encoding.md R53). -/
def variantTag (arg : Operand) : Nat := zext arg

/-- SETCMD's and numeric ENCP's operand: a signed integer (30_encoding.md R53). -/
def signedValue (arg : Operand) : Int := sext32 arg

/-- ENCU's operand: an unsigned raw value (30_encoding.md R53). -/
def rawValue (arg : Operand) : Nat := zext arg

/-- `FIELDS[i]` for `i = fld`; an index with no entry raises FieldIndex (30_encoding.md R53,
60_exceptions.md R124). -/
def fieldAt (fld : FieldIndex) : Except Raise FieldSpec :=
  match Config.fields.entries[fld.toNat]? with
  | some f => .ok f
  | none => .error (.code .fieldIndex)

end Sys2Proof.Machine
end

