-- ==== Sys2Proof/Machine/Ops.lean ====
section
/-! DEFINITION. The named operations: the frame buffer (00_scope.md R8, 20_memory.md), the updates of
the state, the response, fault entry and refusal (60_exceptions.md R126, R127), the way out of a fault
(R129), and the frame every command runs in. -/

namespace Sys2Proof.Machine

/-! ### The frame buffer -/

/-- What an address that the list does not hold reads as: 0x00, the reset contents of
10_state.md R27 (log entry 6). -/
def Memory.unlisted : Byte := 0x00

/-- `FRAME[k]`. -/
def Memory.byte : Memory → Nat → Byte
  | [], _ => Memory.unlisted
  | c :: rest, k => if c.1 = k then c.2 else Memory.byte rest k

/-- Put a cell before the first cell of a greater address. -/
def Memory.insertCell (k : Nat) (b : Byte) : Memory → Memory
  | [] => [(k, b)]
  | c :: rest => if k < c.1 then (k, b) :: c :: rest else c :: Memory.insertCell k b rest

/-- `FRAME[k] <- b`, in canonical form: the byte an unlisted address reads as is not listed. -/
def Memory.setByte (m : Memory) (k : Nat) (b : Byte) : Memory :=
  let others := m.filter (fun c => c.1 ≠ k)
  if b = Memory.unlisted then others else Memory.insertCell k b others

/-- The canonical form: strictly rising addresses of the frame buffer, and no entry equal to what an
unlisted address reads as. -/
abbrev Memory.wf (m : Memory) : Prop :=
  m.Pairwise (fun a b => a.1 < b.1) ∧ ∀ c ∈ m, c.1 < Config.frameLen ∧ c.2 ≠ Memory.unlisted

/-- `sum over j in 0..n-1 of FRAME[k+j] * 2^(8j)` (00_scope.md R8). -/
def Memory.value (m : Memory) (k : Nat) : Nat → Nat
  | 0 => 0
  | n + 1 => m.value k n + (m.byte (k + n)).toNat * 2 ^ (8 * n)

/-- For j in 0..n-1, `FRAME[k+j] <- v[8j+7:8j]` (00_scope.md R8); the bits of `v` from 8n up are not
stored (log entry 19). -/
def Memory.setValue (m : Memory) (k v : Nat) : Nat → Memory
  | 0 => m
  | n + 1 => (m.setValue k v n).setByte (k + n) (BitVec.ofNat 8 (v >>> (8 * n)))

/-- `MemRead(k, n)`, little-endian; it requires `k + n <= FRAME_LEN` (00_scope.md R8), and otherwise
the model stops at the last address asked for (log entry 8). -/
def Memory.load (m : Memory) (k n : Nat) : Except Raise Nat :=
  if k + n ≤ Config.frameLen then .ok (m.value k n) else .error (.outside (k + n - 1))

/-- `MemWrite(k, n, v)`, little-endian; it requires `k + n <= FRAME_LEN` (00_scope.md R8), and
otherwise the model stops at the last address asked for (log entry 8). R8 requires `v < 2^(8n)` too and
gives no effect otherwise: DESIGN CHOICE, the bytes of `v` above the `n`-th are dropped (log entry 19).
No command writes such a `v`: `mergeField_lt`. -/
def Memory.store (m : Memory) (k n v : Nat) : Except Raise Memory :=
  if k + n ≤ Config.frameLen then .ok (m.setValue k v n) else .error (.outside (k + n - 1))

/-- W, the whole buffer as one unsigned integer of 64 bits (00_scope.md R8). -/
def Memory.whole (m : Memory) : Nat := m.value 0 Config.frameLen

/-- Frame bit b, `W[b]` (00_scope.md R8, 20_memory.md R32). -/
def Memory.bit (m : Memory) (b : Nat) : Bool := m.whole.testBit b

/-! ### Updates of the state -/

/-- `EN <- v`. -/
def State.setEn (s : State) (v : BitVec 1) : State := { s with en := v }

/-- `CMD <- v`. -/
def State.setCmd (s : State) (v : BitVec 8) : State := { s with cmd := v }

/-- `FRAME <- m`. -/
def State.setFrame (s : State) (m : Memory) : State := { s with frame := m }

/-- What the hosts have presented and the block has not yet taken. -/
def State.setPending (s : State) (es : List PortEvent) : State := { s with pending := es }

/-- `respond(err, data)`: the one response of the current command (30_encoding.md R59). -/
def State.respond (s : State) (err : Bool) (data : BitVec 32) : State :=
  { s with responses := s.responses ++ [⟨err, data⟩] }

/-- The two status writes of fault entry: `FAULT <- 1; FCODE <- c` (60_exceptions.md R126). -/
def State.setFault (s : State) (c : FaultCode) : State :=
  { s with fault := true, fcode := c.code }

/-- Fault entry (60_exceptions.md R126): the state before the command, the two status writes and the
response `(1, c)`. No handler, no vector, no saved program counter. -/
def State.takeFault (s : State) (c : FaultCode) : State :=
  (s.setFault c).respond true (codeData c.code)

/-- Refusal of a command while FAULT = 1 (60_exceptions.md R127): no state changes, the response is
`(1, FCODE)`. -/
def State.refuse (s : State) : State := s.respond true (codeData s.fcode)

/-- Hardware reset, the only way out of the faulted state (60_exceptions.md R129,
70_reset_and_hazards.md R140): every piece of the block's state takes its reset value; no response.
The hosts' later events and the responses already given are not the block's to reset (log entry
15). -/
def State.hardwareReset (s : State) : State :=
  { State.reset with pending := s.pending, responses := s.responses }

/-! ### The frame of a command -/

/-- One command (60_exceptions.md R128): refused while FAULT = 1; otherwise its effect is the state
and the response data that `effect` gives, or the fault it raises, whose entry discards every write
of the command. `decode` reads no state, so testing FAULT here and not before decoding is the same
(log entry 9). -/
def State.command (s : State) (effect : Except Raise (State × BitVec 32)) : Result :=
  if s.fault then .next s.refuse
  else
    match effect with
    | .ok (s', data) => .next (s'.respond false data)
    | .error (.code c) => .next (s.takeFault c)
    | .error (.outside a) => .fault (.outsideFrame a)

/-- A command that responds with data 0 (30_encoding.md R59). -/
def State.silently (r : Except Raise State) : Except Raise (State × BitVec 32) :=
  match r with
  | .ok s' => .ok (s', 0)
  | .error e => .error e

/-- A command that writes FRAME only (10_state.md R10). -/
def State.writeFrame (s : State) (r : Except Raise Memory) : Except Raise State :=
  match r with
  | .ok m => .ok (s.setFrame m)
  | .error e => .error e

end Sys2Proof.Machine
end

