-- ==== Sys2Proof/Machine/BitField.lean ====
section
/-! DEFINITION. The bit-field codec (40_codec.md R79): P2R (offset, scale, round, clamp), ENUMENC (enum
mapping) and ENC (shift-mask insertion), for any FieldSpec. -/

namespace Sys2Proof.Machine

/-! ### Where a field lies (20_memory.md R34, R35) -/

/-- `k0 = bit_offset div 8`: the first byte a field write touches (20_memory.md R34). -/
def firstByte (f : FieldSpec) : Nat := f.bitOffset / 8

/-- `s = bit_offset mod 8`: where the field starts in its first byte (20_memory.md R34). -/
def startBit (f : FieldSpec) : Nat := f.bitOffset % 8

/-- `n = (s + bit_length + 7) div 8`: the number of bytes a field write touches (20_memory.md
R34). -/
def spanBytes (f : FieldSpec) : Nat := (startBit f + f.bitLength + 7) / 8

/-- `need = (bit_offset + bit_length + 7) div 8`: the least buffer length (20_memory.md R35). -/
def neededBytes (f : FieldSpec) : Nat := (f.bitOffset + f.bitLength + 7) / 8

/-- `m = 2^len - 1`: the field mask (40_codec.md R74). -/
def fieldMask (f : FieldSpec) : Nat := 2 ^ f.bitLength - 1

/-! ### The three functions -/

/-- The numerator of `q = (p - offset) / precision` over the denominator `quotientDen f`, both read
from the exact rationals' own numerators and denominators (log entry 12). -/
def quotientNum (f : FieldSpec) (p : Int) : Int :=
  (p * f.offset.den - f.offset.num) * f.precision.den

/-- The denominator of `q` (see `quotientNum`); not 0 when the precision is not 0. -/
def quotientDen (f : FieldSpec) : Int := f.offset.den * f.precision.num

/-- `P2R(f, p)` (40_codec.md R70): subtract the offset, divide by the precision, round, clamp to the
unsigned range of the field width. Exact, and never a fault. -/
def p2r (f : FieldSpec) (p : Int) : Nat :=
  (clamp (roundQuotient (quotientNum f p) (quotientDen f)) 0 (2 ^ f.bitLength - 1)).toNat

/-- `ENUMENC(f, t)` over the code list (40_codec.md R72): a tag outside the closed variant set raises
EnumDomain. -/
def enumenc (codes : List Nat) (t : Nat) : Except Raise Nat :=
  match codes[t]? with
  | some c => .ok c
  | none => .error (.code .enumDomain)

/-- The raw value of a field: P2R of the physical value `p` of a numeric field, ENUMENC of the tag
`t` of an enum field (40_codec.md R76). -/
def rawOf (f : FieldSpec) (p : Int) (t : Nat) : Except Raise Nat :=
  match f.kind with
  | .numeric => .ok (p2r f p)
  | .enum codes _ => enumenc codes t

/-- `ENC`'s new value of the spanned bytes: `(old & ~(m << s)) | ((raw & m) << s)`, `~` within 8n
bits (40_codec.md R74). -/
def mergeField (f : FieldSpec) (raw old : Nat) : Nat :=
  (old &&& ((2 ^ (8 * spanBytes f) - 1) ^^^ (fieldMask f <<< startBit f)))
    ||| ((raw &&& fieldMask f) <<< startBit f)

/-- `ENC(f, raw)` (40_codec.md R74): a read-modify-write of the spanned bytes under the field's mask.
A field that does not fit the buffer raises BufferSpan and writes nothing (R73). -/
def enc (f : FieldSpec) (raw : Nat) (m : Memory) : Except Raise Memory :=
  if Config.frameLen < neededBytes f then .error (.code .bufferSpan)
  else
    match m.load (firstByte f) (spanBytes f) with
    | .error e => .error e
    | .ok old => m.store (firstByte f) (spanBytes f) (mergeField f raw old)

/-- The physical-to-raw transform or the enum mapping, then ENC (40_codec.md R76, the body of
RENDER's loop in 41_frame_record.md R96). -/
def encPhysical (f : FieldSpec) (p : Int) (t : Nat) (m : Memory) : Except Raise Memory :=
  match rawOf f p t with
  | .error e => .error e
  | .ok raw => enc f raw m

end Sys2Proof.Machine
end

