-- ==== Sys2Proof/Machine/CodecCommands.lean ====
section
/-! DEFINITION. The codec's commands: ENCU and ENCP (40_codec.md R75, R76). -/

namespace Sys2Proof.Machine

/-- ENCU's buffer: `ENC(FIELDS[i], raw)` (40_codec.md R75). The field's kind is not looked at. -/
def encodeRaw (fld : FieldIndex) (arg : Operand) (m : Memory) : Except Raise Memory :=
  match fieldAt fld with
  | .error e => .error e
  | .ok f => enc f (rawValue arg) m

/-- ENCU fld, arg (40_codec.md R75). -/
def execEncu (fld : FieldIndex) (arg : Operand) (s : State) : Result :=
  s.command (State.silently (s.writeFrame (encodeRaw fld arg s.frame)))

/-- ENCP's buffer: P2R or ENUMENC, then ENC (40_codec.md R76). The physical range is not applied: it
is the setter's. -/
def encodePhysical (fld : FieldIndex) (arg : Operand) (m : Memory) : Except Raise Memory :=
  match fieldAt fld with
  | .error e => .error e
  | .ok f => encPhysical f (signedValue arg) (variantTag arg) m

/-- ENCP fld, arg (40_codec.md R76). -/
def execEncp (fld : FieldIndex) (arg : Operand) (s : State) : Result :=
  s.command (State.silently (s.writeFrame (encodePhysical fld arg s.frame)))

end Sys2Proof.Machine
end

