-- ==== Sys2Proof/Machine/Descriptor.lean ====
section
/-! DEFINITION. The transmission descriptor: GETPER and GETID (42_descriptor.md). -/

namespace Sys2Proof.Machine

/-- GETPER (42_descriptor.md R110): respond with PERIOD_MS, change nothing. -/
def execGetper (s : State) : Result := s.command (.ok (s, Config.periodMs))

/-- GETID (42_descriptor.md R111): respond with ARB_ID, change nothing. -/
def execGetid (s : State) : Result := s.command (.ok (s, Config.arbId))

end Sys2Proof.Machine
end

