-- ==== Sys2Proof/Machine/FrameRecord.lean ====
section
/-! DEFINITION. The frame record: RESET, SETEN, SETCMD, RENDER (41_frame_record.md). -/

namespace Sys2Proof.Machine

/-- The reset operation: `MemWrite(0, 8, 0)` (41_frame_record.md R91). -/
def zeroFrame (m : Memory) : Except Raise Memory := m.store 0 Config.frameLen 0

/-- RESET (41_frame_record.md R91). -/
def execReset (s : State) : Result := s.command (State.silently (s.writeFrame (zeroFrame s.frame)))

/-- SETEN's effect: `EN <- arg[0]`, or EnumDomain when the tag is not in the closed variant set
(41_frame_record.md R93, 60_exceptions.md R123). -/
def setVariant (arg : Operand) (s : State) : Except Raise State :=
  if 2 ≤ variantTag arg then .error (.code .enumDomain) else .ok (s.setEn (arg.extractLsb' 0 1))

/-- SETEN arg (41_frame_record.md R93). -/
def execSeten (arg : Operand) (s : State) : Result := s.command (State.silently (setVariant arg s))

/-- The value SETCMD stores: the signed operand clamped to the physical range of `FIELDS[1]` before
any narrowing (41_frame_record.md R94). -/
def saturated (arg : Operand) : Int :=
  clamp (signedValue arg) Config.brakePedalCmd.physMin Config.brakePedalCmd.physMax

/-- SETCMD arg (41_frame_record.md R94): every 32-bit operand is accepted. -/
def execSetcmd (arg : Operand) (s : State) : Result :=
  s.command (State.silently (.ok (s.setCmd (BitVec.ofInt 8 (saturated arg)))))

/-- `VAL[i]`, the logical value of each field of the table, in table order (41_frame_record.md
R96). -/
def logicalValues (s : State) : List Nat := [s.en.toNat, s.cmd.toNat]

/-- RENDER's loop: for every field in ascending index order, ENC of its raw value (41_frame_record.md
R96). -/
def encFields : List (FieldSpec × Nat) → Memory → Except Raise Memory
  | [], m => .ok m
  | (f, v) :: rest, m =>
    match encPhysical f v v m with
    | .error e => .error e
    | .ok m' => encFields rest m'

/-- The marshalled buffer: the reset operation, then every field (41_frame_record.md R96). -/
def renderFrame (s : State) : Except Raise Memory :=
  match zeroFrame s.frame with
  | .error e => .error e
  | .ok m => encFields (Config.fields.entries.zip (logicalValues s)) m

/-- RENDER (41_frame_record.md R96). -/
def execRender (s : State) : Result := s.command (State.silently (s.writeFrame (renderFrame s)))

end Sys2Proof.Machine
end

