-- ==== Sys2Proof/Machine/Dispatch.lean ====
section
/-! DEFINITION. One arm per command (60_exceptions.md R128). -/

namespace Sys2Proof.Machine

def exec (i : Instr) (s : State) : Host.Outcome State Fault Refusal :=
  match i with
  | .reset => Sys2Proof.Machine.execReset s
  | .seten arg => Sys2Proof.Machine.execSeten arg s
  | .setcmd arg => Sys2Proof.Machine.execSetcmd arg s
  | .render => Sys2Proof.Machine.execRender s
  | .getper => Sys2Proof.Machine.execGetper s
  | .getid => Sys2Proof.Machine.execGetid s
  | .encu fld arg => Sys2Proof.Machine.execEncu fld arg s
  | .encp fld arg => Sys2Proof.Machine.execEncp fld arg s

end Sys2Proof.Machine
end

