-- ==== Sys2Proof/Machine/Accept.lean ====
section
/-! DEFINITION. Taking an event from the ports: an accepted command word is decoded and executed
(60_exceptions.md R128), a hardware reset resets (70_reset_and_hazards.md R140). -/

namespace Sys2Proof.Machine

/-- `CW = cmd_op ‖ cmd_fld ‖ cmd_arg` (30_encoding.md R51). -/
def CommandPorts.word (c : CommandPorts) : CommandWord := assembleWord c.op c.fld c.arg

/-- A command word as it stands on the ports (30_encoding.md R51). -/
def portsOfWord (w : CommandWord) : CommandPorts := ⟨opField w, fldField w, argField w⟩

/-- A word that decodes to no command raises IllegalCommand (60_exceptions.md R122). -/
def raiseIllegal (s : State) : Result := s.command (.error (.code .illegalCommand))

/-- `step(S, CW)` of 60_exceptions.md R128 for one accepted command word. -/
def acceptWord (w : CommandWord) (s : State) : Result :=
  match decode w with
  | .error _ => raiseIllegal s
  | .ok i => exec i s

/-- One event of the ports. A command presented in the same cycle as a hardware reset is not accepted
and has no effect (70_reset_and_hazards.md R140, 60_exceptions.md R130). -/
def acceptEvent (e : PortEvent) (s : State) : Result :=
  match e with
  | .command c => acceptWord c.word s
  | .hardwareReset _ => .next s.hardwareReset

/-- The oldest event is taken; with none the block waits (70_reset_and_hazards.md R152, log entry
3). -/
def serve (s : State) : Result :=
  match s.pending with
  | [] => .next s
  | e :: rest => acceptEvent e (s.setPending rest)

/-- The hosts present one more event, ahead of all others. -/
def presentFirst (e : PortEvent) (s : State) : State := s.setPending (e :: s.pending)

end Sys2Proof.Machine
end

