-- ==== Sys2Proof/Machine/Step.lean ====
section
/-! DEFINITION. The step of the machine: the next event of the ports (60_exceptions.md R128). -/

namespace Sys2Proof.Machine

/-- One step: the oldest pending event, completely (00_scope.md R7). -/
def step (s : State) : Host.Outcome State Fault Refusal := serve s

/-- `s` with the instruction whose bits are `w` (numbered as the opcode table numbers them) presented
on the command port, so that the next step accepts exactly it (log entry 4). -/
def State.withFetchWord (s : State) (nbits w : Nat) : State :=
  presentFirst (.command (portsOfWord (tableWord nbits w))) s

end Sys2Proof.Machine
end

