-- ==== Sys2Proof/Machine/Assembler.lean ====
section
/-! DEFINITION. The textual form of a command (30_encoding.md R60): from a line of text to an
`AsmLine`, and from an `AsmLine` to its command word. A host's tool, not a part of the block: nothing
of `step` uses it. The lexical choices R60 leaves open are log entry 16. The source's call names map
one to one onto the mnemonics (R61): `reset()` RESET, `set_brake_pedal_en_ctrl(v)` SETEN,
`set_brake_pedal_cmd(v)` SETCMD, `render()` RENDER, `get_period()` GETPER,
`encode_unsigned(FRAME, FIELDS[i], raw)` ENCU. -/

namespace Sys2Proof.Machine

/-! ### Words -/

/-- The operand of a SETEN or ENCP line: DISABLE = 0, ENABLE = 1, or the number modulo 2^32
(30_encoding.md R60). -/
def asmOperandBits : AsmOperand → Operand
  | .number v => BitVec.ofInt 32 v
  | .disable => 0
  | .enable => 1

/-- The command a line stands for; `.word` stands for a word, not a command (30_encoding.md R60). -/
def asmInstr : AsmLine → Option Instr
  | .reset => some .reset
  | .seten v => some (.seten (asmOperandBits v))
  | .setcmd v => some (.setcmd (BitVec.ofInt 32 v))
  | .render => some .render
  | .getper => some .getper
  | .getid => some .getid
  | .encu i raw => some (.encu (BitVec.ofInt 4 i) (BitVec.ofInt 32 raw))
  | .encp i v => some (.encp (BitVec.ofInt 4 i) (asmOperandBits v))
  | .word _ => none

/-- The column "encodes" of 30_encoding.md R60. -/
def asmWord : AsmLine → CommandWord
  | .reset => 0x1000000000#40
  | .seten v => 0x20#8 ++ asmOperandBits v
  | .setcmd v => 0x30#8 ++ BitVec.ofInt 32 v
  | .render => 0x4000000000#40
  | .getper => 0x5000000000#40
  | .getid => 0x6000000000#40
  | .encu i raw => 0x7#4 ++ BitVec.ofInt 4 i ++ BitVec.ofInt 32 raw
  | .encp i v => 0x8#4 ++ BitVec.ofInt 4 i ++ asmOperandBits v
  | .word w => BitVec.ofNat 40 w

/-- A line assembles when its operands are in the ranges of 30_encoding.md R60. -/
def assemble (l : AsmLine) : Option CommandWord :=
  if l.wellFormed Config.fields.entries then some (asmWord l) else none

/-! ### Text -/

/-- `;` starts a comment (30_encoding.md R60). -/
def withoutComment (line : List Char) : List Char := line.takeWhile (· ≠ ';')

/-- The word gathered so far, when there is one. -/
def flushToken (gathered : List Char) : List (List Char) :=
  if gathered = [] then [] else [gathered.reverse]

/-- The words of a line: separated by blanks, a comma a word of its own. -/
def tokens (gathered : List Char) : List Char → List (List Char)
  | [] => flushToken gathered
  | c :: cs =>
    if c = ' ' ∨ c = '\t' ∨ c = '\r' then flushToken gathered ++ tokens [] cs
    else if c = ',' then flushToken gathered ++ [[',']] ++ tokens [] cs
    else tokens (c :: gathered) cs

/-- A decimal digit, or a hexadecimal one when the base is 16. -/
def digitValue (base : Nat) (c : Char) : Option Nat :=
  if 48 ≤ c.toNat ∧ c.toNat ≤ 57 then some (c.toNat - 48)
  else if base = 16 ∧ 65 ≤ c.toNat ∧ c.toNat ≤ 70 then some (c.toNat - 55)
  else if base = 16 ∧ 97 ≤ c.toNat ∧ c.toNat ≤ 102 then some (c.toNat - 87)
  else none

/-- The digits after `acc`. -/
def digitsValue (base acc : Nat) : List Char → Option Nat
  | [] => some acc
  | c :: cs =>
    match digitValue base c with
    | some d => digitsValue base (acc * base + d) cs
    | none => none

/-- A number without digits is none. -/
def unsignedNumber (base : Nat) (ds : List Char) : Option Nat :=
  if ds = [] then none else digitsValue base 0 ds

/-- "numbers are decimal (with optional leading `-`) or `0x` hexadecimal" (30_encoding.md R60). -/
def asmNumber : List Char → Option Int
  | '0' :: 'x' :: ds => (unsignedNumber 16 ds).map Int.ofNat
  | '-' :: ds => (unsignedNumber 10 ds).map (fun n => -(n : Int))
  | ds => (unsignedNumber 10 ds).map Int.ofNat

/-- DISABLE, ENABLE or a number (30_encoding.md R60). -/
def asmOperand (t : List Char) : Option AsmOperand :=
  if t = "DISABLE".toList then some .disable
  else if t = "ENABLE".toList then some .enable
  else (asmNumber t).map .number

/-- `.word 0x<10 hex digits>` (30_encoding.md R60). -/
def asmWordOperand : List Char → Option Nat
  | '0' :: 'x' :: ds => if ds.length = 10 then unsignedNumber 16 ds else none
  | _ => none

/-- The syntax column of 30_encoding.md R60, one word list per line; mnemonics are upper case. -/
def asmOfTokens : List (List Char) → Option AsmLine
  | [m] =>
    if m = "RESET".toList then some .reset
    else if m = "RENDER".toList then some .render
    else if m = "GETPER".toList then some .getper
    else if m = "GETID".toList then some .getid
    else none
  | [m, a] =>
    if m = "SETEN".toList then (asmOperand a).map .seten
    else if m = "SETCMD".toList then (asmNumber a).map .setcmd
    else if m = ".word".toList then (asmWordOperand a).map .word
    else none
  | [m, i, [','], v] =>
    if m = "ENCU".toList then
      match asmNumber i, asmNumber v with
      | some i, some raw => some (.encu i raw)
      | _, _ => none
    else if m = "ENCP".toList then
      match asmNumber i, asmOperand v with
      | some i, some v => some (.encp i v)
      | _, _ => none
    else none
  | _ => none

/-- The command word of a line of text (30_encoding.md R60): `some none` for a line that holds no
command, `none` for a line that is no command. -/
def assembleText (line : String) : Option (Option CommandWord) :=
  match tokens [] (withoutComment line.toList) with
  | [] => some none
  | ts =>
    match asmOfTokens ts with
    | some l => (assemble l).map some
    | none => none

end Sys2Proof.Machine
end

