-- ==== Sys2Proof/Machine/Ports.lean ====
section
/-! DEFINITION. The output ports (30_encoding.md R62) as functions of the state (10_state.md R26). -/

namespace Sys2Proof.Machine

/-- The outputs valid whenever no command is in execution (10_state.md R26, 30_encoding.md R62). -/
structure Outputs where
  frameQ : BitVec 64
  frameId : BitVec 32
  fault : BitVec 1
  faultCode : BitVec 3
  deriving DecidableEq, Repr

/-- `frame_q = W`, `frame_id = ARB_ID`, `fault = FAULT`, `fault_code = FCODE` (10_state.md R26). -/
def State.outputs (s : State) : Outputs where
  frameQ := BitVec.ofNat 64 s.frame.whole
  frameId := Config.arbId
  fault := faultBit s.fault
  faultCode := s.fcode

/-- cmd_ready between commands: the block is always ready for the next command, faulted or not
(60_exceptions.md R127, R137). The cycles it takes inside a command are left out (log entry 11). -/
def State.cmdReady (_ : State) : BitVec 1 := 1

/-- rsp_err of a response (30_encoding.md R59, R62). -/
def Response.rspErr (r : Response) : BitVec 1 := BitVec.ofBool r.err

/-- rsp_data of a response (30_encoding.md R59, R62). -/
def Response.rspData (r : Response) : BitVec 32 := r.data

/-- The response a step gave, when it gave one: the response ports' value in the pulse of rsp_valid
(30_encoding.md R62: "one pulse per accepted command"). -/
def responseGiven (before after : State) : Option Response :=
  (after.responses.drop before.responses.length).head?

/-- rsp_valid over a step (30_encoding.md R62). -/
def rspValid (before after : State) : BitVec 1 := BitVec.ofBool (responseGiven before after).isSome

end Sys2Proof.Machine
end

