-- ==== Sys2Proof/Safety.lean ====
section
/-! DEFINITION. What the claims speak of: the invariant of the state (10_state.md R29), a run and its
successful end (70_reset_and_hazards.md R152), a rendered frame (41_frame_record.md R100), and the
hosts' duties (70_reset_and_hazards.md R146, R147, R149). -/

namespace Sys2Proof.Machine

/-- The block's own state, the tuple `(EN, CMD, FRAME, FAULT, FCODE)` of 10_state.md R10, without the
model's list of events and list of responses. -/
structure Block where
  en : BitVec 1
  cmd : BitVec 8
  frame : Memory
  fault : Bool
  fcode : BitVec 3
  deriving DecidableEq, Repr

/-- The tuple of a state. -/
def State.block (s : State) : Block := ⟨s.en, s.cmd, s.frame, s.fault, s.fcode⟩

/-- 10_state.md R29 (a) and (c), with FCODE in the range of R10 and FRAME in canonical form. R29 (b)
is the type of `en`. -/
abbrev State.Inv (s : State) : Prop :=
  s.cmd.toNat ≤ 100 ∧ (s.fault = false ↔ s.fcode = 0) ∧ s.fcode.toNat ≤ 4 ∧ s.frame.wf

/-- The state with the hosts' list of events presented, as after a hardware reset. -/
def State.launch (es : List PortEvent) : State := State.reset.setPending es

/-- A state the block reaches from hardware reset by a list of events (10_state.md R29: "reachable
from hardware reset by any sequence of commands", with the hardware resets a run may hold). -/
def State.Reachable (s : State) : Prop :=
  ∃ (es : List PortEvent) (k : Nat), Sys2Proof.core.run k (State.launch es) = .next s

/-- The event is an accepted command word. -/
def PortEvent.isCommand : PortEvent → Bool
  | .command _ => true
  | .hardwareReset _ => false

/-- The state after every event of the hosts' finite list. It is the end of the run of
70_reset_and_hazards.md R152 when the list ends in a command (`runAll_eq_endOfRun`). DESIGN CHOICE: a
hardware reset after the last command is taken too, where R152 has ended the run before it (log entry
21); R152's own end is `State.endOfRun`. -/
def State.runAll (s : State) : Result := Sys2Proof.core.run s.pending.length s

/-- How many events there are up to the last command, that command among them; 0 without a command. -/
def eventsToLastCommand : List PortEvent → Nat
  | [] => 0
  | e :: es =>
    match eventsToLastCommand es with
    | 0 => if e.isCommand then 1 else 0
    | n + 1 => n + 2

/-- The end of the run that starts at the launch state `s` (70_reset_and_hazards.md R152): "it ends when
the last command of the list has been accepted and has given its response". A hardware reset after that
command is not part of the run (log entry 21). -/
def State.endOfRun (s : State) : Result :=
  Sys2Proof.core.run (eventsToLastCommand s.pending) s

/-- The run that starts at the launch state `s` ends successfully (70_reset_and_hazards.md R152): "An
end state with `FAULT = 1` is not a successful end", and no later hardware reset makes it one (log entry
21). The launch has FAULT = 0, the premise R152 asks of every claim. -/
def State.successfulEnd (s : State) : Prop :=
  s.fault = false ∧ ∃ t, s.endOfRun = .next t ∧ t.fault = false

/-- The event is the command `i`. -/
def PortEvent.issues (e : PortEvent) (i : Instr) : Bool :=
  match e with
  | .command c => decide ((decode c.word).toOption = some i)
  | .hardwareReset _ => false

/-- The sender host's duty of a fresh render (70_reset_and_hazards.md R147): the last event before the
frame is taken is an accepted RENDER. -/
def endsInRender (es : List PortEvent) : Bool :=
  match es.getLast? with
  | some e => e.issues .render
  | none => false

/-- The duty of a host that builds a frame by hand (70_reset_and_hazards.md R146): RESET first, then
field writes only, to every field of the table. -/
def handBuild : List Instr → Bool
  | .reset :: writes =>
    writes.all (fun i => match i with | .encu _ _ => true | .encp _ _ => true | _ => false)
      && (List.range Config.nFields).all (fun k => writes.any (fun i =>
        match i with
        | .encu fld _ => fld.toNat == k
        | .encp fld _ => fld.toNat == k
        | _ => false))
  | _ => false

/-- The sender host may transmit (70_reset_and_hazards.md R147, R149): the frame was just rendered and
the block shows no fault. -/
def mayTransmit (es : List PortEvent) (s : State) : Bool := endsInRender es && !s.fault

/-- A frame a RENDER can leave (20_memory.md R37, 41_frame_record.md R100): byte 0 is 0x00 or 0x01,
byte 1 is in 0x00..0x64, bytes 2 to 7 are 0x00. -/
abbrev Memory.rendered (m : Memory) : Prop :=
  (m.byte 0).toNat ≤ 1 ∧ (m.byte 1).toNat ≤ 100
    ∧ ∀ k : Fin Config.frameLen, 2 ≤ k.val → m.byte k.val = 0

end Sys2Proof.Machine
end

