-- ==== Sys2Proof/Certificates/Slice0/Obligations.lean ====
section
/-! DEFINITION. The statements for the provers, each with the rule of spec/ it formalises. A statement
"about a completed command" gives the whole next state: what is not named in it is unchanged. -/

open Sys2Proof Sys2Proof.Machine

/-! ### Encoding (30_encoding.md) -/

/-- Every command is read back from its word, whatever its operands (30_encoding.md R52, R58). -/
def Obligations.DecodeEncodeRoundTrip : Prop :=
  ∀ i : Instr, decode (encode i) = .ok i

/-- A word that decodes to a command is that command's word: no bit of a legal word is dropped
(30_encoding.md R52, R54, R58). -/
def Obligations.EncodeDecodeRoundTrip : Prop :=
  ∀ (w : CommandWord) (i : Instr), decode w = .ok i → encode i = w

/-- Decoding case by case as 30_encoding.md R58 writes it, with CW[35:0] as one 36-bit field. -/
def Obligations.DecodeFollowsTheOpcodeCases : Prop :=
  ∀ w : CommandWord,
    let op := w.extractLsb' 36 4
    let fld := w.extractLsb' 32 4
    let arg := w.extractLsb' 0 32
    let low := w.extractLsb' 0 36
    (decode w).toOption =
      if op = 0x1#4 then (if low = 0#36 then some .reset else none)
      else if op = 0x2#4 then (if fld = 0#4 then some (.seten arg) else none)
      else if op = 0x3#4 then (if fld = 0#4 then some (.setcmd arg) else none)
      else if op = 0x4#4 then (if low = 0#36 then some .render else none)
      else if op = 0x5#4 then (if low = 0#36 then some .getper else none)
      else if op = 0x6#4 then (if low = 0#36 then some .getid else none)
      else if op = 0x7#4 then some (.encu fld arg)
      else if op = 0x8#4 then some (.encp fld arg)
      else none

/-- The decoder rejects exactly the words that match no row of the opcode map (30_encoding.md R52,
R55, R63). -/
def Obligations.DecodeAcceptsExactlyTheTableRows : Prop :=
  ∀ w : CommandWord,
    (∃ i, decode w = .ok i) ↔ ∃ r ∈ opcodeTable, w &&& r.mask = r.matchBits

/-- A word that decodes matches one row of the opcode map, the row of its mnemonic (30_encoding.md
R52: "No two rows match the same word"). -/
def Obligations.DecodedWordMatchesItsRowOnly : Prop :=
  ∀ (w : CommandWord) (i : Instr), decode w = .ok i →
    ∀ r ∈ opcodeTable, (w &&& r.mask = r.matchBits ↔ r.mnemonic = i.mnemonic)

/-- Words written out from the spec's encodings, one for each command and one for each kind of
illegal word (95_test_vectors.md section 5). That the last two are illegal is 30_encoding.md R58; the two
names of the rejection, reservedOpcode and mustBeZero, are the model's choice (log entry 10, DESIGN
CHOICE), where R58 has one Illegal. -/
def Obligations.SpecWordsDecode : Prop :=
  decode 0x1000000000#40 = .ok .reset
    ∧ decode 0x2000000001#40 = .ok (.seten 1)
    ∧ decode 0x30FFFFFFFB#40 = .ok (.setcmd 0xFFFFFFFB)
    ∧ decode 0x4000000000#40 = .ok .render
    ∧ decode 0x5000000000#40 = .ok .getper
    ∧ decode 0x6000000000#40 = .ok .getid
    ∧ decode 0x710000002A#40 = .ok (.encu 1 0x2A)
    ∧ decode 0x8000000001#40 = .ok (.encp 0 1)
    ∧ decode 0x0000000000#40 = .error (.reservedOpcode 0)
    ∧ decode 0x310000002A#40 = .error (.mustBeZero 3)

/-- A line of the assembler whose operands are in range assembles to a word that decodes to the
command the line names (30_encoding.md R60). -/
def Obligations.AssembledLineDecodesToItsCommand : Prop :=
  ∀ (l : AsmLine) (i : Instr), asmInstr l = some i →
    l.wellFormed Config.fields.entries = true →
      ∃ w, assemble l = some w ∧ decode w = .ok i

/-! ### The step (60_exceptions.md R128, 70_reset_and_hazards.md R140) -/

/-- When the next event of the ports is a command word that decodes to `i`, the step is `exec i` on
the state without that event. While FAULT = 1 too: there 60_exceptions.md R127 and R128 refuse the word
before decoding it, and the statement holds because the model tests FAULT inside `exec i`, which then is
that refusal (log entry 9, DEDUCED). -/
def Obligations.StepRunsTheDecodedCommand : Prop :=
  ∀ (s : State) (c : CommandPorts) (rest : List PortEvent) (i : Instr),
    s.pending = .command c :: rest → decode c.word = .ok i →
      step s = exec i { s with pending := rest }

/-- The step function of 60_exceptions.md R128, written out: the refusal while FAULT = 1, then
decoding, then the command, which completes with a response of err 0 or has its writes discarded by
the entry of the fault it raises. -/
def Obligations.CommandStepFollowsTheStepFunction : Prop :=
  ∀ (s : State) (c : CommandPorts) (rest : List PortEvent), s.pending = .command c :: rest →
    (s.fault = true →
      step s = .next { s with
        pending := rest, responses := s.responses ++ [⟨true, s.fcode.setWidth 32⟩] })
    ∧ (s.fault = false → ∀ e, decode c.word = .error e →
      step s = .next { s with
        pending := rest, fault := true, fcode := 1, responses := s.responses ++ [⟨true, 1⟩] })
    ∧ (s.fault = false → ∀ i, decode c.word = .ok i →
      step s = exec i { s with pending := rest }
      ∧ ((∃ t d, step s = .next t ∧ t.fault = false ∧ t.fcode = s.fcode
            ∧ t.responses = s.responses ++ [⟨false, d⟩])
        ∨ ∃ f : FaultCode, step s = .next { s with
            pending := rest, fault := true, fcode := f.code,
            responses := s.responses ++ [⟨true, f.code.setWidth 32⟩] }))

/-- With no event presented the step leaves the state as it is: the block waits for the next command
(70_reset_and_hazards.md R152, log entry 3). -/
def Obligations.StepWaitsWithoutAnEvent : Prop :=
  ∀ s : State, s.pending = [] → step s = .next s

/-- Hardware reset, in any state and whatever command is presented in the same cycle: every piece of
the block's state takes its reset value (FRAME, FAULT and FCODE by the spec's decision D22), no
response is given, and the hosts' later events stay (70_reset_and_hazards.md R140, 10_state.md R27; log
entries 6 and 15). -/
def Obligations.HardwareResetRestoresEveryPieceOfState : Prop :=
  ∀ (s : State) (presented : Option CommandPorts) (rest : List PortEvent),
    s.pending = .hardwareReset presented :: rest →
      ∃ t, step s = .next t ∧ t.en = 0 ∧ t.cmd = 0 ∧ (∀ k, t.frame.byte k = 0) ∧ t.fault = false
        ∧ t.fcode = 0 ∧ t.pending = rest ∧ t.responses = s.responses

/-- The state after hardware reset and the outputs it shows: the table of 10_state.md R27. FRAME, FAULT
and FCODE have the values of the spec's own decision D22; the form of FRAME is log entry 6. -/
def Obligations.ResetStateHoldsTheResetValues : Prop :=
  State.reset.en = 0 ∧ State.reset.cmd = 0 ∧ (∀ k, State.reset.frame.byte k = 0)
    ∧ State.reset.fault = false ∧ State.reset.fcode = 0
    ∧ State.reset.outputs.frameQ = 0 ∧ State.reset.outputs.frameId = 0x00000111
    ∧ State.reset.outputs.fault = 0 ∧ State.reset.outputs.faultCode = 0

/-- Every accepted command word gives exactly one response, by the table of 30_encoding.md R59. -/
def Obligations.EveryCommandGivesOneResponse : Prop :=
  ∀ (s : State) (c : CommandPorts) (rest : List PortEvent), s.pending = .command c :: rest →
    ∃ (t : State) (r : Response), step s = .next t ∧ t.pending = rest
      ∧ t.responses = s.responses ++ [r]
      ∧ (if s.fault then r = ⟨true, s.fcode.setWidth 32⟩
        else if t.fault then r = ⟨true, t.fcode.setWidth 32⟩
        else if decode c.word = .ok .getper then r = ⟨false, Config.periodMs⟩
        else if decode c.word = .ok .getid then r = ⟨false, 0x00000111⟩
        else r = ⟨false, 0⟩)

/-! ### The commands that complete -/

/-- RESET zero-fills the frame buffer, so that frame_q reads 0, and changes nothing else
(41_frame_record.md R91). -/
def Obligations.ResetCommandZeroFillsTheFrame : Prop :=
  ∀ s : State, s.fault = false →
    ∃ m : Memory,
      exec .reset s = .next { s with frame := m, responses := s.responses ++ [⟨false, 0⟩] }
      ∧ (∀ k, k < Config.frameLen → m.byte k = 0)
      ∧ (∀ t, exec .reset s = .next t → t.outputs.frameQ = 0)
      ∧ (∀ k, Config.frameLen ≤ k → m.byte k = s.frame.byte k)

/-- SETEN with a tag of the closed variant set writes EN and nothing else; with any other operand it
raises EnumDomain and EN is unchanged (41_frame_record.md R93). -/
def Obligations.SetenStoresTheVariantTag : Prop :=
  ∀ (arg : Operand) (s : State), s.fault = false →
    (arg.toNat < 2 → ∃ v : BitVec 1, v.toNat = arg.toNat ∧
      exec (.seten arg) s
        = .next { s with en := v, responses := s.responses ++ [⟨false, 0⟩] })
    ∧ (2 ≤ arg.toNat → exec (.seten arg) s
        = .next { s with
            fault := true, fcode := 2, responses := s.responses ++ [⟨true, 2⟩] })

/-- SETCMD accepts every operand, writes the signed value saturated to 0..100 into CMD, and nothing
else (41_frame_record.md R94). -/
def Obligations.SetcmdStoresTheSaturatedPercentage : Prop :=
  ∀ (arg : Operand) (s : State), s.fault = false →
    ∃ v : BitVec 8,
      exec (.setcmd arg) s
        = .next { s with cmd := v, responses := s.responses ++ [⟨false, 0⟩] }
      ∧ (v.toNat : Int)
        = if arg.toInt < 0 then 0 else if 100 < arg.toInt then 100 else arg.toInt

/-- RENDER is the reset operation followed by ENC of `FIELDS[0]` and ENC of `FIELDS[1]`; it leaves EN
in byte 0, CMD in byte 1 and zeros in bytes 2 to 7, whatever the buffer held, and changes nothing else
(41_frame_record.md R96). -/
def Obligations.RenderMarshalsTheLogicalState : Prop :=
  ∀ s : State, s.fault = false →
    ∃ (z e m : Memory) (raw : Nat),
      exec .render s = .next { s with frame := m, responses := s.responses ++ [⟨false, 0⟩] }
      ∧ zeroFrame s.frame = .ok z
      ∧ rawOf Config.brakePedalEnCtrl 0 s.en.toNat = .ok raw
      ∧ enc Config.brakePedalEnCtrl raw z = .ok e
      ∧ enc Config.brakePedalCmd (p2r Config.brakePedalCmd s.cmd.toNat) e = .ok m
      ∧ m.byte 0 = s.en.setWidth 8 ∧ m.byte 1 = s.cmd
      ∧ (∀ k, 2 ≤ k → k < Config.frameLen → m.byte k = 0)
      ∧ (∀ k, Config.frameLen ≤ k → m.byte k = s.frame.byte k)

/-- GETPER responds with PERIOD_MS, the same number in every state with FAULT = 0, and changes no
state (42_descriptor.md R110). -/
def Obligations.GetperReportsThePeriod : Prop :=
  ∀ s : State, s.fault = false →
    exec .getper s = .next { s with responses := s.responses ++ [⟨false, Config.periodMs⟩] }

/-- GETID responds with the arbitration identifier 0x111 and changes no state (42_descriptor.md
R111). -/
def Obligations.GetidReportsTheIdentifier : Prop :=
  ∀ s : State, s.fault = false →
    exec .getid s = .next { s with responses := s.responses ++ [⟨false, 0x00000111⟩] }

/-- ENCU writes the low bits of its operand into the bits of the field its index names, leaves every
other frame bit, every byte outside the field's span and all other state alone, and raises FieldIndex
for an index with no entry (40_codec.md R75). -/
def Obligations.EncuWritesTheRawBitsOfItsField : Prop :=
  ∀ (fld : FieldIndex) (arg : Operand) (s : State), s.fault = false →
    (∀ f, Config.fields.entries[fld.toNat]? = some f →
      ∃ m : Memory,
        exec (.encu fld arg) s
          = .next { s with frame := m, responses := s.responses ++ [⟨false, 0⟩] }
        ∧ (∀ b, b < 8 * Config.frameLen →
          m.bit b = if f.bitOffset ≤ b ∧ b < f.bitOffset + f.bitLength
            then arg.toNat.testBit (b - f.bitOffset) else s.frame.bit b)
        ∧ (∀ k, k < firstByte f ∨ firstByte f + spanBytes f ≤ k → m.byte k = s.frame.byte k))
    ∧ (Config.fields.entries.length ≤ fld.toNat → exec (.encu fld arg) s
        = .next { s with
            fault := true, fcode := 3, responses := s.responses ++ [⟨true, 3⟩] })

/-- ENCP writes the raw value of the physical value (numeric field) or of the variant (enum field)
into the bits of the field, leaves every other frame bit, every byte outside the span and all other
state alone; it raises FieldIndex for an index with no entry and EnumDomain for a tag outside the
enum, with FRAME unchanged (40_codec.md R76). -/
def Obligations.EncpWritesTheEncodedValueOfItsField : Prop :=
  ∀ (fld : FieldIndex) (arg : Operand) (s : State), s.fault = false →
    (∀ f raw, Config.fields.entries[fld.toNat]? = some f →
      (f.kind = .numeric ∧ raw = p2r f arg.toInt
        ∨ ∃ codes names, f.kind = .enum codes names ∧ codes[arg.toNat]? = some raw) →
      ∃ m : Memory,
        exec (.encp fld arg) s
          = .next { s with frame := m, responses := s.responses ++ [⟨false, 0⟩] }
        ∧ (∀ b, b < 8 * Config.frameLen →
          m.bit b = if f.bitOffset ≤ b ∧ b < f.bitOffset + f.bitLength
            then raw.testBit (b - f.bitOffset) else s.frame.bit b)
        ∧ (∀ k, k < firstByte f ∨ firstByte f + spanBytes f ≤ k → m.byte k = s.frame.byte k))
    ∧ (∀ f codes names, Config.fields.entries[fld.toNat]? = some f → f.kind = .enum codes names →
      codes.length ≤ arg.toNat → exec (.encp fld arg) s
        = .next { s with
            fault := true, fcode := 2, responses := s.responses ++ [⟨true, 2⟩] })
    ∧ (Config.fields.entries.length ≤ fld.toNat → exec (.encp fld arg) s
        = .next { s with
            fault := true, fcode := 3, responses := s.responses ++ [⟨true, 3⟩] })

/-- ENCP on this device's two fields in closed form: byte 1 becomes the signed operand clamped to the
field width 0..255 (not to the physical range 0..100), byte 0 the tag; the other bytes and all other
state are unchanged (40_codec.md R76, R70, R72). -/
def Obligations.EncpOnTheDeviceFields : Prop :=
  ∀ (arg : Operand) (s : State), s.fault = false →
    (∃ m : Memory,
      exec (.encp 1 arg) s
        = .next { s with frame := m, responses := s.responses ++ [⟨false, 0⟩] }
      ∧ ((m.byte 1).toNat : Int)
        = (if arg.toInt < 0 then 0 else if 255 < arg.toInt then 255 else arg.toInt)
      ∧ ∀ k, k ≠ 1 → m.byte k = s.frame.byte k)
    ∧ (arg.toNat < 2 → ∃ m : Memory,
      exec (.encp 0 arg) s
        = .next { s with frame := m, responses := s.responses ++ [⟨false, 0⟩] }
      ∧ (m.byte 0).toNat = arg.toNat ∧ ∀ k, k ≠ 0 → m.byte k = s.frame.byte k)

/-! ### Faults (60_exceptions.md) -/

/-- A word that matches no row of the opcode map raises IllegalCommand and has no other effect;
reserved opcodes 0x0 and 0x9 to 0xF match none, whatever the other bits (30_encoding.md R55). -/
def Obligations.UnmatchedWordRaisesIllegalCommand : Prop :=
  (∀ (s : State) (c : CommandPorts) (rest : List PortEvent), s.pending = .command c :: rest →
    s.fault = false → (∀ r ∈ opcodeTable, c.word &&& r.mask ≠ r.matchBits) →
      step s = .next { s with
        pending := rest, fault := true, fcode := 1, responses := s.responses ++ [⟨true, 1⟩] })
  ∧ ∀ w : CommandWord, (w.extractLsb' 36 4 = 0x0#4 ∨ 0x9#4 ≤ w.extractLsb' 36 4) →
      ∀ r ∈ opcodeTable, w &&& r.mask ≠ r.matchBits

/-- While FAULT = 1 every accepted command word, legal or not, is refused: no state of the block
changes, and the response is (1, FCODE) (60_exceptions.md R127). -/
def Obligations.FaultedBlockRefusesEveryCommand : Prop :=
  ∀ s : State, s.fault = true →
    (∀ i : Instr, exec i s
      = .next { s with responses := s.responses ++ [⟨true, s.fcode.setWidth 32⟩] })
    ∧ ∀ (c : CommandPorts) (rest : List PortEvent), s.pending = .command c :: rest →
      step s = .next { s with
        pending := rest, responses := s.responses ++ [⟨true, s.fcode.setWidth 32⟩] }

/-- Fault entry is precise: when a command raises a fault, the state is the state before the command
plus FAULT = 1, FCODE = the fault's code and the response (1, code), and the outputs show the two
(60_exceptions.md R126). -/
def Obligations.FaultEntryChangesOnlyTheStatus : Prop :=
  ∀ (s t : State) (c : CommandPorts) (rest : List PortEvent), s.pending = .command c :: rest →
    s.fault = false → step s = .next t → t.fault = true →
      ∃ f : FaultCode,
        t = { s with
          pending := rest, fault := true, fcode := f.code,
          responses := s.responses ++ [⟨true, f.code.setWidth 32⟩] }
        ∧ t.outputs.fault = 1 ∧ t.outputs.faultCode = f.code

/-- Only hardware reset leaves the faulted state, and it restores EN, CMD and FRAME; until then FCODE
names the first fault (60_exceptions.md R129; the reset values are those of `State.reset`). -/
def Obligations.OnlyHardwareResetLeavesTheFault : Prop :=
  ∀ s t : State, s.fault = true → step s = .next t →
    (t.fault = true ∧ t.fcode = s.fcode)
    ∨ ((∃ presented rest, s.pending = .hardwareReset presented :: rest)
        ∧ t.fault = false ∧ t.fcode = 0 ∧ t.en = State.reset.en ∧ t.cmd = State.reset.cmd
        ∧ t.frame = State.reset.frame)

/-- EnumDomain (code 2) is raised by SETEN when `arg >= 2` and by ENCP on an enum field when the tag
is not below the number of its codes, with EN and FRAME unchanged; RENDER never raises it
(60_exceptions.md R123). -/
def Obligations.EnumDomainIsRaisedByTheOutOfSetTag : Prop :=
  ∀ s : State, s.fault = false →
    (∀ arg : Operand, 2 ≤ arg.toNat → exec (.seten arg) s
      = .next { s with fault := true, fcode := 2, responses := s.responses ++ [⟨true, 2⟩] })
    ∧ (∀ (fld : FieldIndex) (arg : Operand) (f : FieldSpec) (codes : List Nat)
        (names : List String), Config.fields.entries[fld.toNat]? = some f →
        f.kind = .enum codes names → codes.length ≤ arg.toNat → exec (.encp fld arg) s
          = .next { s with fault := true, fcode := 2, responses := s.responses ++ [⟨true, 2⟩] })
    ∧ ∃ t, exec .render s = .next t ∧ t.fault = false

/-- FieldIndex (code 3) is raised by ENCU and ENCP when `fld >= N_FIELDS`, for this device 2 to 15,
whatever the operand, with no other effect (60_exceptions.md R124). -/
def Obligations.FieldIndexIsRaisedBeyondTheTable : Prop :=
  Config.nFields = 2 ∧
  ∀ (fld : FieldIndex) (arg : Operand) (s : State), s.fault = false → 2 ≤ fld.toNat →
    exec (.encu fld arg) s
      = .next { s with fault := true, fcode := 3, responses := s.responses ++ [⟨true, 3⟩] }
    ∧ exec (.encp fld arg) s
      = .next { s with fault := true, fcode := 3, responses := s.responses ++ [⟨true, 3⟩] }

/-- BufferSpan (code 4) is what ENC raises when its precondition fails, whatever the FieldSpec, and no
command of the configured block raises it (60_exceptions.md R125). -/
def Obligations.BufferSpanIsRaisedByEncAndByNoCommand : Prop :=
  (∀ (f : FieldSpec) (raw : Nat) (m : Memory),
    Config.frameLen < (f.bitOffset + f.bitLength + 7) / 8 →
      enc f raw m = .error (.code .bufferSpan))
  ∧ ∀ (i : Instr) (s t : State), s.fault = false → exec i s = .next t → t.fault = true →
      t.fcode ≠ 4

/-- Out-of-range values never fault: SETCMD with any operand, ENCP on a numeric field with any
operand and ENCU on a field of the table with any operand leave FAULT = 0 and respond (0, 0)
(60_exceptions.md R134). -/
def Obligations.OutOfRangeValuesNeverFault : Prop :=
  ∀ (i : Instr) (s : State), s.fault = false →
    ((∃ arg, i = .setcmd arg)
      ∨ (∃ fld arg f, i = .encp fld arg ∧ Config.fields.entries[fld.toNat]? = some f
          ∧ f.kind = .numeric)
      ∨ (∃ fld arg, i = .encu fld arg ∧ fld.toNat < Config.nFields)) →
    ∃ t, exec i s = .next t ∧ t.fault = false ∧ t.fcode = s.fcode
      ∧ t.responses = s.responses ++ [⟨false, 0⟩]

/-! ### Laws of the frame record (41_frame_record.md) -/

/-- From any state with FAULT = 0, RENDER leaves the same block as RESET; ENCP 0, EN; ENCP 1, CMD, and
as RESET; ENCU 0, EN; ENCU 1, CMD (41_frame_record.md R98, which the spec marks as derived from R96,
R91, R76, R75, R70 and R72). -/
def Obligations.RenderEqualsResetThenFieldWrites : Prop :=
  ∀ s : State, s.fault = false →
    ∃ t a b c d e : State,
      exec .render s = .next t
      ∧ exec .reset s = .next a
      ∧ exec (.encp 0 (s.en.setWidth 32)) a = .next b
      ∧ exec (.encp 1 (s.cmd.setWidth 32)) b = .next c ∧ c.block = t.block
      ∧ exec (.encu 0 (s.en.setWidth 32)) a = .next d
      ∧ exec (.encu 1 (s.cmd.setWidth 32)) d = .next e ∧ e.block = t.block

/-- What RENDER leaves in the buffer is a function of EN and CMD alone, so that rendering twice
without a setter in between yields byte-identical buffers (41_frame_record.md R97 (e), marked as
derived there; conflict C3). -/
def Obligations.RenderedBytesDependOnTheLogicalStateOnly : Prop :=
  (∀ s s' t t' : State, s.en = s'.en → s.cmd = s'.cmd → s.fault = false → s'.fault = false →
    exec .render s = .next t → exec .render s' = .next t' →
      ∀ k, k < Config.frameLen → t.frame.byte k = t'.frame.byte k)
  ∧ ∀ s t u : State, s.fault = false → exec .render s = .next t → exec .render t = .next u →
      ∀ k, u.frame.byte k = t.frame.byte k

/-- RENDER never fails: with CMD in 0..100 and FAULT = 0 it completes with a frame whose byte 0 is at
most 1, byte 1 at most 0x64 and bytes 2 to 7 zero; with FAULT = 1 it is refused and frame_q keeps the
last buffer (41_frame_record.md R100, marked as derived from R96; CMD in 0..100 is R12). -/
def Obligations.RenderAlwaysProducesAWellFormedFrame : Prop :=
  ∀ s : State, s.cmd.toNat ≤ 100 →
    (s.fault = false → ∃ t, exec .render s = .next t ∧ t.fault = false ∧ t.frame.rendered)
    ∧ (s.fault = true → ∃ t, exec .render s = .next t ∧ t.outputs.frameQ = s.outputs.frameQ
        ∧ t.responses = s.responses ++ [⟨true, s.fcode.setWidth 32⟩])

/-- After hardware reset, without any other command, RENDER produces the all-zero frame
(70_reset_and_hazards.md R141, which the spec marks as derived from R27 and R96). -/
def Obligations.RenderAfterResetIsAllZero : Prop :=
  ∃ t, exec .render State.reset = .next t ∧ t.fault = false
    ∧ ∀ k, k < Config.frameLen → t.frame.byte k = 0

/-- The setters commute when both complete, of two SETENs or two SETCMDs the later wins, and none of
them touches FRAME (41_frame_record.md R95; the law is read for setters that raise no fault, log entry
13). -/
def Obligations.SettersCommuteAndTheLaterWins : Prop :=
  ∀ (s : State) (a b v w : Operand), s.fault = false → a.toNat < 2 → b.toNat < 2 →
    (∃ x y x' y', exec (.seten a) s = .next x ∧ exec (.setcmd v) x = .next y
      ∧ exec (.setcmd v) s = .next x' ∧ exec (.seten a) x' = .next y'
      ∧ y.block = y'.block ∧ y.frame = s.frame)
    ∧ (∃ x y z, exec (.seten a) s = .next x ∧ exec (.seten b) x = .next y
      ∧ exec (.seten b) s = .next z ∧ y.block = z.block)
    ∧ ∃ x y z, exec (.setcmd v) s = .next x ∧ exec (.setcmd w) x = .next y
      ∧ exec (.setcmd w) s = .next z ∧ y.block = z.block

/-- RESET, RENDER, ENCU and ENCP are each idempotent on FRAME (20_memory.md R36: "RESET, RENDER, ENCU
and ENCP are each idempotent on FRAME", marked as derived there). -/
def Obligations.FrameWritersAreIdempotent : Prop :=
  ∀ (i : Instr) (s t u : State), s.fault = false →
    (i = .reset ∨ i = .render ∨ (∃ fld arg, i = .encu fld arg) ∨ ∃ fld arg, i = .encp fld arg) →
    exec i s = .next t → exec i t = .next u → ∀ k, u.frame.byte k = t.frame.byte k

/-- Which events write which piece of state: EN only SETEN and hardware reset, CMD only SETCMD and
hardware reset, FRAME only RESET, RENDER, ENCU, ENCP and hardware reset (10_state.md R10, R24;
20_memory.md R30). -/
def Obligations.OnlyTheNamedCommandsWriteEachRegister : Prop :=
  ∀ (s t : State) (e : PortEvent) (rest : List PortEvent), s.pending = e :: rest →
    step s = .next t →
    (∃ presented, e = .hardwareReset presented)
    ∨ ∃ c, e = .command c
      ∧ (t.en ≠ s.en → ∃ arg, decode c.word = .ok (.seten arg))
      ∧ (t.cmd ≠ s.cmd → ∃ arg, decode c.word = .ok (.setcmd arg))
      ∧ (t.frame ≠ s.frame → decode c.word = .ok .reset ∨ decode c.word = .ok .render
          ∨ (∃ fld arg, decode c.word = .ok (.encu fld arg))
          ∨ ∃ fld arg, decode c.word = .ok (.encp fld arg))

/-! ### The codec (40_codec.md), for any FieldSpec -/

/-- ENC on the whole buffer as the integer W and bit by bit: the field's bits become the low bits of
the raw value, every other frame bit and every byte outside the span keeps its value; a field that
does not fit raises BufferSpan (40_codec.md R74). -/
def Obligations.EncReplacesExactlyTheFieldBits : Prop :=
  ∀ (f : FieldSpec) (raw : Nat) (m : Memory),
    (Config.frameLen < (f.bitOffset + f.bitLength + 7) / 8 →
      enc f raw m = .error (.code .bufferSpan))
    ∧ ((f.bitOffset + f.bitLength + 7) / 8 ≤ Config.frameLen →
      ∃ m' : Memory, enc f raw m = .ok m'
        ∧ m'.whole = (m.whole &&& ((2 ^ 64 - 1) ^^^ ((2 ^ f.bitLength - 1) <<< f.bitOffset)))
            ||| ((raw &&& (2 ^ f.bitLength - 1)) <<< f.bitOffset)
        ∧ (∀ i, i < f.bitLength → m'.bit (f.bitOffset + i) = raw.testBit i)
        ∧ (∀ b, b < 64 → b < f.bitOffset ∨ f.bitOffset + f.bitLength ≤ b → m'.bit b = m.bit b)
        ∧ ∀ k, k < firstByte f ∨ firstByte f + spanBytes f ≤ k → m'.byte k = m.byte k)

/-- ENC accesses no byte outside the buffer, whatever the FieldSpec: it completes or raises BufferSpan
(00_scope.md R8, 40_codec.md R73), so the model's own stop is never reached. -/
def Obligations.EncNeverLeavesTheFrameBuffer : Prop :=
  (∀ (f : FieldSpec) (raw : Nat) (m : Memory) (a : Nat), enc f raw m ≠ .error (.outside a))
    ∧ ∀ (i : Instr) (s : State), ∃ t, exec i s = .next t

/-- The laws of ENC on the whole buffer: writing the same value twice is writing it once, the later of
two writes of one field wins, disjoint fields commute, and the field reads back the raw value modulo
2^len (40_codec.md R77 (d), (e), (f), (j), marked as derived from R74). -/
def Obligations.EncLaws : Prop :=
  ∀ (f g : FieldSpec) (a b : Nat) (m : Memory),
    neededBytes f ≤ Config.frameLen → neededBytes g ≤ Config.frameLen →
    ∃ ma : Memory, enc f a m = .ok ma
      ∧ (∃ x, enc f a ma = .ok x ∧ x.whole = ma.whole)
      ∧ (∃ x y, enc f b ma = .ok x ∧ enc f b m = .ok y ∧ x.whole = y.whole)
      ∧ ma.whole / 2 ^ f.bitOffset % 2 ^ f.bitLength = a % 2 ^ f.bitLength
      ∧ (f.bitOffset + f.bitLength ≤ g.bitOffset ∨ g.bitOffset + g.bitLength ≤ f.bitOffset →
        ∃ x y z, enc g b ma = .ok x ∧ enc g b m = .ok y ∧ enc f a y = .ok z
          ∧ x.whole = z.whole)

/-- P2R is exact: the raw value is the integer nearest to the rational (p - offset) / precision, a tie
going away from zero, clamped to the unsigned range of the field width, below 2^bit_length
(40_codec.md R70). -/
def Obligations.P2rRoundsTheExactQuotient : Prop :=
  ∀ (f : FieldSpec) (p : Int), f.precision ≠ 0 →
    ∃ r : Int,
      |((p : ℚ) - f.offset) / f.precision - r| ≤ 1 / 2
      ∧ (|((p : ℚ) - f.offset) / f.precision - r| = 1 / 2 →
        |((p : ℚ) - f.offset) / f.precision| < |(r : ℚ)|)
      ∧ (p2r f p : Int)
        = (if r < 0 then 0 else if 2 ^ f.bitLength - 1 < r then 2 ^ f.bitLength - 1 else r)
      ∧ p2r f p < 2 ^ f.bitLength

/-- For a positive precision P2R is monotone in the physical value, for a negative one antitone
(40_codec.md R71 (i), marked as derived from R70). -/
def Obligations.P2rIsMonotone : Prop :=
  ∀ (f : FieldSpec) (p p' : Int), p ≤ p' →
    (0 < f.precision → p2r f p ≤ p2r f p') ∧ (f.precision < 0 → p2r f p' ≤ p2r f p)

/-- For the pedal field P2R is the clamp to 0..255: raw equals the percentage directly (40_codec.md
R70). -/
def Obligations.PedalFieldTransformIsTheIdentityClamp : Prop :=
  ∀ p : Int, (p2r Config.brakePedalCmd p : Int) = if p < 0 then 0 else if 255 < p then 255 else p

/-- ENUMENC answers the code of a tag below the number of codes and raises EnumDomain for any other;
a well-formed FieldSpec's code fits its field; for `FIELDS[0]` tag 0 gives 0 and tag 1 gives 1
(40_codec.md R72). -/
def Obligations.EnumencMapsTagsToCodes : Prop :=
  (∀ (f : FieldSpec) (codes : List Nat) (names : List String) (p : Int) (t : Nat),
    f.kind = .enum codes names →
      (codes.length ≤ t → rawOf f p t = .error (.code .enumDomain))
      ∧ ∀ h : t < codes.length, rawOf f p t = .ok codes[t]
        ∧ (f.wellFormed Config.frameLen = true → codes[t] < 2 ^ f.bitLength))
  ∧ ∀ (p : Int) (t : Nat), rawOf Config.brakePedalEnCtrl p t
      = if t = 0 then .ok 0 else if t = 1 then .ok 1 else .error (.code .enumDomain)

/-- The span of a field: `need = k0 + n`, and for FRAME_LEN = 8 the bound is
`bit_offset + bit_length <= 64`; a well-formed field touches 1 to 8 bytes (20_memory.md R34, R35). -/
def Obligations.SpanFitsTheBound : Prop :=
  ∀ f : FieldSpec,
    neededBytes f = firstByte f + spanBytes f
    ∧ (neededBytes f ≤ Config.frameLen ↔ f.bitOffset + f.bitLength ≤ 64)
    ∧ (f.wellFormed Config.frameLen = true → 1 ≤ spanBytes f ∧ spanBytes f ≤ 8)

/-! ### The buffer and the outputs (20_memory.md, 10_state.md) -/

/-- Frame bit b is bit `b mod 8` of byte `FRAME[b div 8]` (20_memory.md R32). -/
def Obligations.FrameBitIsABitOfItsByte : Prop :=
  ∀ (m : Memory) (b : Nat), b < 8 * Config.frameLen → m.bit b = (m.byte (b / 8)).getLsbD (b % 8)

/-- The output ports show the state: frame_q is W, byte k of it is FRAME[k] and bit b of it is frame
bit b, frame_id is the arbitration
identifier, fault and fault_code are FAULT and FCODE (10_state.md R26). -/
def Obligations.OutputPortsShowTheState : Prop :=
  ∀ s : State,
    (∀ k, k < Config.frameLen → s.outputs.frameQ.extractLsb' (8 * k) 8 = s.frame.byte k)
    ∧ (∀ b, b < 64 → s.outputs.frameQ.getLsbD b = s.frame.bit b)
    ∧ s.outputs.frameQ.toNat = s.frame.whole ∧ s.outputs.frameId = 0x00000111
    ∧ (s.outputs.fault = 1 ↔ s.fault = true) ∧ s.outputs.faultCode = s.fcode

/-! ### Invariants and runs -/

/-- The reset state meets the invariant: CMD in 0..100, FAULT = 0 exactly when FCODE = 0, FCODE at
most 4, FRAME in canonical form (10_state.md R27, R29; log entry 6). -/
def Obligations.ResetStateMeetsTheInvariant : Prop := State.reset.Inv

/-- Every step keeps the invariant, from every state that meets it (10_state.md R29 (a), (c), marked as
derived there; the canonical form of FRAME is the model's, log entry 6). -/
def Obligations.EveryStepKeepsTheInvariant : Prop :=
  ∀ s t : State, s.Inv → step s = .next t → t.Inv

/-- In every state reachable from hardware reset: CMD is in 0..100, EN is 0 or 1, FAULT = 0 exactly
when FCODE = 0, a faulted block is changed by no command, a RESET that did not fault leaves W = 0 and
a RENDER that did not fault leaves bytes 2 to 7 zero (10_state.md R29, whose points the spec marks as
derived). -/
def Obligations.ReachableStatesKeepTheStateRules : Prop :=
  ∀ s : State, s.Reachable →
    s.cmd.toNat ≤ 100 ∧ (s.en = 0 ∨ s.en = 1) ∧ (s.fault = false ↔ s.fcode = 0)
    ∧ (s.fault = true → ∀ i, ∃ t, exec i s = .next t ∧ t.block = s.block)
    ∧ (∀ t, exec .reset s = .next t → t.fault = false → t.frame.whole = 0)
    ∧ ∀ t, exec .render s = .next t → t.fault = false →
        ∀ k, 2 ≤ k → k < Config.frameLen → t.frame.byte k = 0

/-- Once FAULT = 1, the tuple (EN, CMD, FRAME, FAULT, FCODE) stays the same through any number of
steps over commands, until a hardware reset (10_state.md R29 (d), marked as derived from R127). -/
def Obligations.FaultedBlockIsFrozenAlongARun : Prop :=
  ∀ (s : State) (k : Nat), s.fault = true → (∀ e ∈ s.pending, e.isCommand = true) →
    ∃ t : State, Sys2Proof.core.run k s = .next t ∧ t.block = s.block

/-- Every run ends: the steps over the hosts' finite list of events never stop, take every event, and
give one response for each command (70_reset_and_hazards.md R152, 30_encoding.md R59). That a hardware
reset after the last command is taken too is the model's choice (log entry 21, DESIGN CHOICE): R152 ends
the run before it. -/
def Obligations.EveryRunTakesAllEvents : Prop :=
  ∀ s : State, ∃ t : State, s.runAll = .next t ∧ t.pending = []
    ∧ t.responses.length
      = s.responses.length + (s.pending.filter PortEvent.isCommand).length

/-- A run from hardware reset whose last event is an accepted RENDER, and which ends without a fault,
leaves a rendered frame that shows the logical state, whatever the hosts interleaved before
(70_reset_and_hazards.md R147, R148; 41_frame_record.md R100). -/
def Obligations.RunEndingInRenderLeavesARenderedFrame : Prop :=
  ∀ (es : List PortEvent) (t : State), endsInRender es = true →
    (State.launch es).runAll = .next t → t.fault = false →
      t.frame.rendered ∧ t.frame.byte 0 = t.en.setWidth 8 ∧ t.frame.byte 1 = t.cmd

/-- A frame built by hand by RESET and then field writes only keeps zero in every byte that no field
covers (70_reset_and_hazards.md R146). -/
def Obligations.HandBuiltFrameIsZeroOutsideTheFields : Prop :=
  ∀ (l : List Instr) (s t : State), handBuild l = true → s.fault = false →
    s.pending = l.map (fun i => .command (portsOfWord (encode i))) →
    s.runAll = .next t → t.fault = false →
      ∀ k, 2 ≤ k → k < Config.frameLen → t.frame.byte k = 0

/-- What a command does to the block and what it responds depend on the tuple (EN, CMD, FRAME, FAULT,
FCODE) alone, not on the commands before it (41_frame_record.md R99, 10_state.md R25). -/
def Obligations.EffectDependsOnTheBlockStateOnly : Prop :=
  ∀ (i : Instr) (s s' t t' : State), s.block = s'.block → exec i s = .next t →
    exec i s' = .next t' → t.block = t'.block ∧
      ∃ r : Response, t.responses = s.responses ++ [r] ∧ t'.responses = s'.responses ++ [r]
end

