-- ==== Sys2Proof/Laws/Memory.lean ====
section
/-! SUPPORT. Laws of the frame buffer: what a byte reads after a write, that every operation keeps the
canonical form, and the one thing each access can do. -/

namespace Sys2Proof.Machine

@[simp] theorem Memory.byte_nil (k : Nat) : Memory.byte [] k = 0 := rfl

theorem Memory.byte_cons (c : Host.Cell) (m : Memory) (k : Nat) :
    Memory.byte (c :: m) k = if c.1 = k then c.2 else Memory.byte m k := rfl

/-- An address that no cell lists reads as 0x00. -/
theorem Memory.byte_of_unlisted {m : Memory} {k : Nat} (h : ∀ c ∈ m, c.1 ≠ k) : m.byte k = 0 := by
  induction m with
  | nil => rfl
  | cons c m ih =>
    rw [Memory.byte_cons, if_neg (h c (by simp))]
    exact ih fun d hd => h d (by simp [hd])

theorem Memory.byte_without_same (m : Memory) (k : Nat) :
    Memory.byte (m.filter (fun c => c.1 ≠ k)) k = 0 :=
  Memory.byte_of_unlisted fun c hc => by simpa using (List.mem_filter.1 hc).2

theorem Memory.byte_without_other (m : Memory) {j k : Nat} (h : j ≠ k) :
    Memory.byte (m.filter (fun c => c.1 ≠ k)) j = m.byte j := by
  induction m with
  | nil => rfl
  | cons c m ih =>
    by_cases hc : c.1 = k
    · have : c.1 ≠ j := fun h' => h (h'.symm.trans hc)
      simpa [List.filter_cons, hc, Memory.byte_cons, this, show k ≠ j from Ne.symm h] using ih
    · rw [List.filter_cons_of_pos (by simpa using hc), Memory.byte_cons, Memory.byte_cons, ih]

theorem Memory.byte_insertCell_same (m : Memory) (k : Nat) (b : Byte) (h : ∀ c ∈ m, c.1 ≠ k) :
    Memory.byte (Memory.insertCell k b m) k = b := by
  induction m with
  | nil => simp [Memory.insertCell, Memory.byte_cons]
  | cons c m ih =>
    unfold Memory.insertCell
    split
    · simp [Memory.byte_cons]
    · rw [Memory.byte_cons, if_neg (h c (by simp))]
      exact ih fun d hd => h d (by simp [hd])

theorem Memory.byte_insertCell_other (m : Memory) {j k : Nat} (b : Byte) (h : j ≠ k) :
    Memory.byte (Memory.insertCell k b m) j = m.byte j := by
  induction m with
  | nil => simp [Memory.insertCell, Memory.byte_cons, Ne.symm h]
  | cons c m ih =>
    unfold Memory.insertCell
    split
    · rw [Memory.byte_cons, if_neg (Ne.symm h)]
    · rw [Memory.byte_cons, Memory.byte_cons, ih]

/-- Read after write, same address. -/
@[simp] theorem Memory.byte_setByte_same (m : Memory) (k : Nat) (b : Byte) :
    (m.setByte k b).byte k = b := by
  unfold Memory.setByte
  split
  · next h => rw [Memory.byte_without_same, h]; rfl
  · exact Memory.byte_insertCell_same _ _ _ fun c hc => by simpa using (List.mem_filter.1 hc).2

/-- Read after write, another address. -/
theorem Memory.byte_setByte_other (m : Memory) {j k : Nat} (b : Byte) (h : j ≠ k) :
    (m.setByte k b).byte j = m.byte j := by
  unfold Memory.setByte
  split
  · exact Memory.byte_without_other m h
  · rw [Memory.byte_insertCell_other _ _ h, Memory.byte_without_other m h]

theorem Memory.byte_setByte (m : Memory) (j k : Nat) (b : Byte) :
    (m.setByte k b).byte j = if j = k then b else m.byte j := by
  split
  · next h => rw [h, Memory.byte_setByte_same]
  · next h => exact Memory.byte_setByte_other m b h

/-- A little-endian write stores byte `j - k` of the value at each written address `j`, and leaves
every other address alone. -/
theorem Memory.byte_setValue (m : Memory) (k v n j : Nat) :
    (m.setValue k v n).byte j
      = if k ≤ j ∧ j < k + n then BitVec.ofNat 8 (v >>> (8 * (j - k))) else m.byte j := by
  induction n with
  | zero => rw [if_neg (by omega)]; rfl
  | succ n ih =>
    rw [Memory.setValue, Memory.byte_setByte, ih]
    by_cases h : j = k + n
    · subst h; simp
    · rw [if_neg h]
      by_cases h' : k ≤ j ∧ j < k + n
      · rw [if_pos h', if_pos (by omega)]
      · rw [if_neg h', if_neg (by omega)]

/-! ### The canonical form -/

theorem Memory.mem_insertCell {m : Memory} {k : Nat} {b : Byte} {c : Host.Cell}
    (h : c ∈ Memory.insertCell k b m) : c = (k, b) ∨ c ∈ m := by
  induction m with
  | nil => simpa [Memory.insertCell] using h
  | cons d m ih =>
    unfold Memory.insertCell at h
    split at h
    · simpa using h
    · rcases List.mem_cons.1 h with h | h
      · exact .inr (by simp [h])
      · exact (ih h).imp_right fun h => by simp [h]

theorem Memory.insertCell_rises {m : Memory} {k : Nat} (b : Byte)
    (hm : m.Pairwise (fun a b => a.1 < b.1)) (hk : ∀ c ∈ m, c.1 ≠ k) :
    (Memory.insertCell k b m).Pairwise (fun a b => a.1 < b.1) := by
  induction m with
  | nil => simp [Memory.insertCell]
  | cons d m ih =>
    obtain ⟨hd, hm⟩ := List.pairwise_cons.1 hm
    have hdk := hk d (by simp)
    unfold Memory.insertCell
    split
    · next h =>
      refine List.pairwise_cons.2 ⟨fun c hc => ?_, List.pairwise_cons.2 ⟨hd, hm⟩⟩
      rcases List.mem_cons.1 hc with rfl | hc
      · exact h
      · exact lt_trans h (hd c hc)
    · next h =>
      refine List.pairwise_cons.2 ⟨fun c hc => ?_, ih hm fun c hc => hk c (by simp [hc])⟩
      rcases Memory.mem_insertCell hc with rfl | hc
      · exact lt_of_le_of_ne (not_lt.1 h) hdk
      · exact hd c hc

/-- A write to an address of the frame buffer keeps the canonical form. -/
theorem Memory.wf_setByte {m : Memory} {k : Nat} (b : Byte) (hm : m.wf) (hk : k < Config.frameLen) :
    (m.setByte k b).wf := by
  have hf : (m.filter (fun c => c.1 ≠ k)).Pairwise (fun a b => a.1 < b.1) := hm.1.filter _
  have hc : ∀ c ∈ m.filter (fun c => c.1 ≠ k), c.1 < Config.frameLen ∧ c.2 ≠ Memory.unlisted :=
    fun c hc => hm.2 c (List.mem_filter.1 hc).1
  unfold Memory.setByte
  split
  · exact ⟨hf, hc⟩
  · next hb =>
    refine ⟨Memory.insertCell_rises b hf fun c hc => by simpa using (List.mem_filter.1 hc).2, ?_⟩
    intro c h
    rcases Memory.mem_insertCell h with rfl | h
    · exact ⟨hk, hb⟩
    · exact hc c h

theorem Memory.wf_setValue {m : Memory} {k n : Nat} (v : Nat) (hm : m.wf)
    (hk : k + n ≤ Config.frameLen) : (m.setValue k v n).wf := by
  induction n with
  | zero => exact hm
  | succ n ih => exact Memory.wf_setByte _ (ih (by omega)) (by omega)

/-- The empty list, the memory of `State.reset`, is canonical. -/
theorem Memory.wf_nil : Memory.wf [] := ⟨List.Pairwise.nil, by simp⟩

theorem State.reset_frame_wf : State.reset.frame.wf := Memory.wf_nil

/-- MemWrite keeps the canonical form. -/
theorem Memory.wf_store {m m' : Memory} {k n v : Nat} (hm : m.wf) (h : m.store k n v = .ok m') :
    m'.wf := by
  unfold Memory.store at h
  split at h
  · next hk => cases h; exact Memory.wf_setValue v hm hk
  · cases h

/-- In canonical form equal reads are equal memories, so equal buffers are equal data. -/
theorem Memory.eq_of_byte_eq {m m' : Memory} (hm : m.wf) (hm' : m'.wf)
    (h : ∀ k, m.byte k = m'.byte k) : m = m' := by
  induction m generalizing m' with
  | nil =>
    cases m' with
    | nil => rfl
    | cons c m' =>
      have := h c.1
      rw [Memory.byte_nil, Memory.byte_cons, if_pos rfl] at this
      exact absurd this.symm (hm'.2 c (by simp)).2
  | cons c m ih =>
    cases m' with
    | nil =>
      have := h c.1
      rw [Memory.byte_nil, Memory.byte_cons, if_pos rfl] at this
      exact absurd this (hm.2 c (by simp)).2
    | cons d m' =>
      obtain ⟨hc, hmp⟩ := List.pairwise_cons.1 hm.1
      obtain ⟨hd, hmp'⟩ := List.pairwise_cons.1 hm'.1
      have low : ∀ {x : Host.Cell} {l : Memory} {k : Nat}, (∀ a ∈ l, x.1 < a.1) → k < x.1 →
          Memory.byte (x :: l) k = 0 := by
        intro x l k hl hk
        refine Memory.byte_of_unlisted fun a ha => ?_
        rcases List.mem_cons.1 ha with rfl | ha
        · omega
        · have := hl a ha; omega
      have hcd : c.1 = d.1 := by
        rcases lt_trichotomy c.1 d.1 with hlt | heq | hgt
        · have h1 := h c.1
          rw [low hd hlt, Memory.byte_cons, if_pos rfl] at h1
          exact absurd h1 (hm.2 c (by simp)).2
        · exact heq
        · have h1 := h d.1
          rw [low hc hgt, Memory.byte_cons, if_pos rfl] at h1
          exact absurd h1.symm (hm'.2 d (by simp)).2
      have hcell : c = d := by
        refine Prod.ext hcd ?_
        have h1 := h c.1
        rwa [Memory.byte_cons, if_pos rfl, Memory.byte_cons, if_pos hcd.symm] at h1
      subst hcell
      congr 1
      refine ih ⟨hmp, fun a ha => hm.2 a (by simp [ha])⟩ ⟨hmp', fun a ha => hm'.2 a (by simp [ha])⟩
        fun k => ?_
      by_cases hk : c.1 = k
      · subst hk
        rw [Memory.byte_of_unlisted fun a ha => (hc a ha).ne',
          Memory.byte_of_unlisted fun a ha => (hd a ha).ne']
      · have h1 := h k
        rwa [Memory.byte_cons, if_neg hk, Memory.byte_cons, if_neg hk] at h1

/-! ### The two accesses -/

/-- Everything MemRead can do. -/
theorem Memory.load_cases (m : Memory) (k n : Nat) :
    (k + n ≤ Config.frameLen ∧ m.load k n = .ok (m.value k n))
      ∨ (Config.frameLen < k + n ∧ m.load k n = .error (.outside (k + n - 1))) := by
  unfold Memory.load
  split
  · next h => exact .inl ⟨h, rfl⟩
  · next h => exact .inr ⟨by omega, rfl⟩

/-- Everything MemWrite can do. -/
theorem Memory.store_cases (m : Memory) (k n v : Nat) :
    (k + n ≤ Config.frameLen ∧ m.store k n v = .ok (m.setValue k v n))
      ∨ (Config.frameLen < k + n ∧ m.store k n v = .error (.outside (k + n - 1))) := by
  unfold Memory.store
  split
  · next h => exact .inl ⟨h, rfl⟩
  · next h => exact .inr ⟨by omega, rfl⟩

theorem Memory.load_ok {m : Memory} {k n : Nat} (h : k + n ≤ Config.frameLen) :
    m.load k n = .ok (m.value k n) := if_pos h

theorem Memory.store_ok {m : Memory} {k n v : Nat} (h : k + n ≤ Config.frameLen) :
    m.store k n v = .ok (m.setValue k v n) := if_pos h

/-- A read of `n` bytes is below `2^(8n)`. -/
theorem Memory.value_lt (m : Memory) (k n : Nat) : m.value k n < 2 ^ (8 * n) := by
  induction n with
  | zero => simp [Memory.value]
  | succ n ih =>
    have hb : (m.byte (k + n)).toNat < 2 ^ 8 := (m.byte (k + n)).isLt
    have hp : (2 : Nat) ^ (8 * (n + 1)) = 2 ^ (8 * n) * 2 ^ 8 := by rw [← pow_add]; congr 1
    rw [Memory.value, hp]
    calc _ < 2 ^ (8 * n) + (m.byte (k + n)).toNat * 2 ^ (8 * n) := by omega
      _ = 2 ^ (8 * n) * ((m.byte (k + n)).toNat + 1) := by ring
      _ ≤ 2 ^ (8 * n) * 2 ^ 8 := Nat.mul_le_mul_left _ hb

/-- A read depends on the bytes read alone. -/
theorem Memory.value_congr {m m' : Memory} {k n : Nat}
    (h : ∀ j, k ≤ j → j < k + n → m.byte j = m'.byte j) : m.value k n = m'.value k n := by
  induction n with
  | zero => rfl
  | succ n ih =>
    rw [Memory.value, Memory.value, ih fun j h1 h2 => h j h1 (by omega), h (k + n) (by omega) (by omega)]

end Sys2Proof.Machine
end

