-- ==== Sys2Proof/Laws/State.lean ====
section
/-! SUPPORT. One lemma per field per update of the state, so that no proof unfolds a record update. -/

namespace Sys2Proof.Machine

/-! ### setEn -/

@[simp] theorem State.setEn_en (s : State) (v : BitVec 1) :
    (s.setEn v).en = v := rfl

@[simp] theorem State.setEn_cmd (s : State) (v : BitVec 1) :
    (s.setEn v).cmd = s.cmd := rfl

@[simp] theorem State.setEn_frame (s : State) (v : BitVec 1) :
    (s.setEn v).frame = s.frame := rfl

@[simp] theorem State.setEn_fault (s : State) (v : BitVec 1) :
    (s.setEn v).fault = s.fault := rfl

@[simp] theorem State.setEn_fcode (s : State) (v : BitVec 1) :
    (s.setEn v).fcode = s.fcode := rfl

@[simp] theorem State.setEn_pending (s : State) (v : BitVec 1) :
    (s.setEn v).pending = s.pending := rfl

@[simp] theorem State.setEn_responses (s : State) (v : BitVec 1) :
    (s.setEn v).responses = s.responses := rfl

/-! ### setCmd -/

@[simp] theorem State.setCmd_en (s : State) (v : BitVec 8) :
    (s.setCmd v).en = s.en := rfl

@[simp] theorem State.setCmd_cmd (s : State) (v : BitVec 8) :
    (s.setCmd v).cmd = v := rfl

@[simp] theorem State.setCmd_frame (s : State) (v : BitVec 8) :
    (s.setCmd v).frame = s.frame := rfl

@[simp] theorem State.setCmd_fault (s : State) (v : BitVec 8) :
    (s.setCmd v).fault = s.fault := rfl

@[simp] theorem State.setCmd_fcode (s : State) (v : BitVec 8) :
    (s.setCmd v).fcode = s.fcode := rfl

@[simp] theorem State.setCmd_pending (s : State) (v : BitVec 8) :
    (s.setCmd v).pending = s.pending := rfl

@[simp] theorem State.setCmd_responses (s : State) (v : BitVec 8) :
    (s.setCmd v).responses = s.responses := rfl

/-! ### setFrame -/

@[simp] theorem State.setFrame_en (s : State) (m : Memory) :
    (s.setFrame m).en = s.en := rfl

@[simp] theorem State.setFrame_cmd (s : State) (m : Memory) :
    (s.setFrame m).cmd = s.cmd := rfl

@[simp] theorem State.setFrame_frame (s : State) (m : Memory) :
    (s.setFrame m).frame = m := rfl

@[simp] theorem State.setFrame_fault (s : State) (m : Memory) :
    (s.setFrame m).fault = s.fault := rfl

@[simp] theorem State.setFrame_fcode (s : State) (m : Memory) :
    (s.setFrame m).fcode = s.fcode := rfl

@[simp] theorem State.setFrame_pending (s : State) (m : Memory) :
    (s.setFrame m).pending = s.pending := rfl

@[simp] theorem State.setFrame_responses (s : State) (m : Memory) :
    (s.setFrame m).responses = s.responses := rfl

/-! ### setPending -/

@[simp] theorem State.setPending_en (s : State) (es : List PortEvent) :
    (s.setPending es).en = s.en := rfl

@[simp] theorem State.setPending_cmd (s : State) (es : List PortEvent) :
    (s.setPending es).cmd = s.cmd := rfl

@[simp] theorem State.setPending_frame (s : State) (es : List PortEvent) :
    (s.setPending es).frame = s.frame := rfl

@[simp] theorem State.setPending_fault (s : State) (es : List PortEvent) :
    (s.setPending es).fault = s.fault := rfl

@[simp] theorem State.setPending_fcode (s : State) (es : List PortEvent) :
    (s.setPending es).fcode = s.fcode := rfl

@[simp] theorem State.setPending_pending (s : State) (es : List PortEvent) :
    (s.setPending es).pending = es := rfl

@[simp] theorem State.setPending_responses (s : State) (es : List PortEvent) :
    (s.setPending es).responses = s.responses := rfl

/-! ### respond -/

@[simp] theorem State.respond_en (s : State) (err : Bool) (data : BitVec 32) :
    (s.respond err data).en = s.en := rfl

@[simp] theorem State.respond_cmd (s : State) (err : Bool) (data : BitVec 32) :
    (s.respond err data).cmd = s.cmd := rfl

@[simp] theorem State.respond_frame (s : State) (err : Bool) (data : BitVec 32) :
    (s.respond err data).frame = s.frame := rfl

@[simp] theorem State.respond_fault (s : State) (err : Bool) (data : BitVec 32) :
    (s.respond err data).fault = s.fault := rfl

@[simp] theorem State.respond_fcode (s : State) (err : Bool) (data : BitVec 32) :
    (s.respond err data).fcode = s.fcode := rfl

@[simp] theorem State.respond_pending (s : State) (err : Bool) (data : BitVec 32) :
    (s.respond err data).pending = s.pending := rfl

@[simp] theorem State.respond_responses (s : State) (err : Bool) (data : BitVec 32) :
    (s.respond err data).responses = s.responses ++ [⟨err, data⟩] := rfl

/-! ### setFault -/

@[simp] theorem State.setFault_en (s : State) (c : FaultCode) :
    (s.setFault c).en = s.en := rfl

@[simp] theorem State.setFault_cmd (s : State) (c : FaultCode) :
    (s.setFault c).cmd = s.cmd := rfl

@[simp] theorem State.setFault_frame (s : State) (c : FaultCode) :
    (s.setFault c).frame = s.frame := rfl

@[simp] theorem State.setFault_fault (s : State) (c : FaultCode) :
    (s.setFault c).fault = true := rfl

@[simp] theorem State.setFault_fcode (s : State) (c : FaultCode) :
    (s.setFault c).fcode = c.code := rfl

@[simp] theorem State.setFault_pending (s : State) (c : FaultCode) :
    (s.setFault c).pending = s.pending := rfl

@[simp] theorem State.setFault_responses (s : State) (c : FaultCode) :
    (s.setFault c).responses = s.responses := rfl

/-! ### takeFault -/

@[simp] theorem State.takeFault_en (s : State) (c : FaultCode) :
    (s.takeFault c).en = s.en := rfl

@[simp] theorem State.takeFault_cmd (s : State) (c : FaultCode) :
    (s.takeFault c).cmd = s.cmd := rfl

@[simp] theorem State.takeFault_frame (s : State) (c : FaultCode) :
    (s.takeFault c).frame = s.frame := rfl

@[simp] theorem State.takeFault_fault (s : State) (c : FaultCode) :
    (s.takeFault c).fault = true := rfl

@[simp] theorem State.takeFault_fcode (s : State) (c : FaultCode) :
    (s.takeFault c).fcode = c.code := rfl

@[simp] theorem State.takeFault_pending (s : State) (c : FaultCode) :
    (s.takeFault c).pending = s.pending := rfl

@[simp] theorem State.takeFault_responses (s : State) (c : FaultCode) :
    (s.takeFault c).responses = s.responses ++ [⟨true, codeData c.code⟩] := rfl

/-! ### refuse -/

@[simp] theorem State.refuse_en (s : State) :
    (s.refuse).en = s.en := rfl

@[simp] theorem State.refuse_cmd (s : State) :
    (s.refuse).cmd = s.cmd := rfl

@[simp] theorem State.refuse_frame (s : State) :
    (s.refuse).frame = s.frame := rfl

@[simp] theorem State.refuse_fault (s : State) :
    (s.refuse).fault = s.fault := rfl

@[simp] theorem State.refuse_fcode (s : State) :
    (s.refuse).fcode = s.fcode := rfl

@[simp] theorem State.refuse_pending (s : State) :
    (s.refuse).pending = s.pending := rfl

@[simp] theorem State.refuse_responses (s : State) :
    (s.refuse).responses = s.responses ++ [⟨true, codeData s.fcode⟩] := rfl

/-! ### hardwareReset -/

@[simp] theorem State.hardwareReset_en (s : State) :
    (s.hardwareReset).en = 0 := rfl

@[simp] theorem State.hardwareReset_cmd (s : State) :
    (s.hardwareReset).cmd = 0 := rfl

@[simp] theorem State.hardwareReset_frame (s : State) :
    (s.hardwareReset).frame = [] := rfl

@[simp] theorem State.hardwareReset_fault (s : State) :
    (s.hardwareReset).fault = false := rfl

@[simp] theorem State.hardwareReset_fcode (s : State) :
    (s.hardwareReset).fcode = 0 := rfl

@[simp] theorem State.hardwareReset_pending (s : State) :
    (s.hardwareReset).pending = s.pending := rfl

@[simp] theorem State.hardwareReset_responses (s : State) :
    (s.hardwareReset).responses = s.responses := rfl

/-! ### reset -/

@[simp] theorem State.reset_en : State.reset.en = 0 := rfl

@[simp] theorem State.reset_cmd : State.reset.cmd = 0 := rfl

@[simp] theorem State.reset_frame : State.reset.frame = [] := rfl

@[simp] theorem State.reset_fault : State.reset.fault = false := rfl

@[simp] theorem State.reset_fcode : State.reset.fcode = 0 := rfl

@[simp] theorem State.reset_pending : State.reset.pending = [] := rfl

@[simp] theorem State.reset_responses : State.reset.responses = [] := rfl

end Sys2Proof.Machine
end

