-- ==== Sys2Proof/Laws/Operations.lean ====
section
/-! SUPPORT. For each shared operation, once, everything it can do. -/

namespace Sys2Proof.Machine

/-! ### The frame of a command -/

/-- Everything a command can do: the refusal of a faulted block, its effect with its response, the
entry of the fault it raises, or the model's own stop. -/
theorem State.command_cases (s : State) (effect : Except Raise (State × BitVec 32)) :
    (s.fault = true ∧ s.command effect = .next s.refuse)
      ∨ (s.fault = false ∧ ∃ s' data, effect = .ok (s', data)
          ∧ s.command effect = .next (s'.respond false data))
      ∨ (s.fault = false ∧ ∃ c, effect = .error (.code c) ∧ s.command effect = .next (s.takeFault c))
      ∨ (s.fault = false ∧ ∃ a, effect = .error (.outside a)
          ∧ s.command effect = .fault (.outsideFrame a)) := by
  unfold State.command
  cases hf : s.fault
  · rcases effect with (c | a) | ⟨s', data⟩
    · exact .inr (.inr (.inl ⟨rfl, c, rfl, rfl⟩))
    · exact .inr (.inr (.inr ⟨rfl, a, rfl, rfl⟩))
    · exact .inr (.inl ⟨rfl, s', data, rfl, rfl⟩)
  · exact .inl ⟨rfl, rfl⟩

theorem State.command_faulted {s : State} (h : s.fault = true)
    (effect : Except Raise (State × BitVec 32)) : s.command effect = .next s.refuse := by
  simp [State.command, h]

theorem State.command_ok {s : State} (h : s.fault = false) (s' : State) (data : BitVec 32) :
    s.command (.ok (s', data)) = .next (s'.respond false data) := by
  simp [State.command, h]

theorem State.command_raises {s : State} (h : s.fault = false) (c : FaultCode) :
    s.command (.error (.code c)) = .next (s.takeFault c) := by
  simp [State.command, h]

@[simp] theorem State.silently_ok (s' : State) : State.silently (.ok s') = .ok (s', 0) := rfl

@[simp] theorem State.silently_error (e : Raise) : State.silently (.error e) = .error e := rfl

@[simp] theorem State.writeFrame_ok (s : State) (m : Memory) :
    s.writeFrame (.ok m) = .ok (s.setFrame m) := rfl

@[simp] theorem State.writeFrame_error (s : State) (e : Raise) :
    s.writeFrame (.error e) = .error e := rfl

/-- The reset operation always succeeds, and writes zeros to all eight bytes. -/
theorem zeroFrame_eq (m : Memory) : zeroFrame m = .ok (m.setValue 0 0 Config.frameLen) :=
  Memory.store_ok (by simp)

/-! ### Integers -/

/-- `sext_32` is the two's-complement reading of the bit vector. -/
theorem sext32_eq_toInt (v : BitVec 32) : sext32 v = v.toInt := by
  unfold sext32
  rw [BitVec.toInt_eq_toNat_cond]
  split <;> split <;> omega

theorem clamp_le {v lo hi : Int} (h : lo ≤ hi) : clamp v lo hi ≤ hi := by
  unfold clamp; split
  · exact h
  · split <;> omega

theorem le_clamp {v lo hi : Int} (h : lo ≤ hi) : lo ≤ clamp v lo hi := by
  unfold clamp; split
  · exact le_refl _
  · split <;> omega

theorem clamp_of_mem {v lo hi : Int} (h1 : lo ≤ v) (h2 : v ≤ hi) : clamp v lo hi = v := by
  unfold clamp; rw [if_neg (by omega), if_neg (by omega)]

/-! ### Fields -/

/-- Everything the lookup of a field can do. -/
theorem fieldAt_cases (fld : FieldIndex) :
    (fld = 0 ∧ fieldAt fld = .ok Config.brakePedalEnCtrl)
      ∨ (fld = 1 ∧ fieldAt fld = .ok Config.brakePedalCmd)
      ∨ (2 ≤ fld.toNat ∧ fieldAt fld = .error (.code .fieldIndex)) := by
  revert fld; decide

/-- Everything ENUMENC can do. -/
theorem enumenc_cases (codes : List Nat) (t : Nat) :
    (∃ c, codes[t]? = some c ∧ enumenc codes t = .ok c)
      ∨ (codes[t]? = none ∧ enumenc codes t = .error (.code .enumDomain)) := by
  unfold enumenc
  cases h : codes[t]? with
  | none => exact .inr ⟨rfl, rfl⟩
  | some c => exact .inl ⟨c, rfl, rfl⟩

/-- Everything the raw value of a field can be. -/
theorem rawOf_cases (f : FieldSpec) (p : Int) (t : Nat) :
    (f.kind = .numeric ∧ rawOf f p t = .ok (p2r f p))
      ∨ (∃ codes names, f.kind = .enum codes names ∧ rawOf f p t = enumenc codes t) := by
  unfold rawOf
  cases h : f.kind with
  | numeric => exact .inl ⟨rfl, rfl⟩
  | enum codes names => exact .inr ⟨codes, names, rfl, rfl⟩

/-- The bytes of the span end where the needed buffer ends (20_memory.md R35). -/
theorem firstByte_add_spanBytes (f : FieldSpec) : firstByte f + spanBytes f = neededBytes f := by
  unfold firstByte spanBytes neededBytes startBit; omega

/-- What ENC stores meets MemWrite's requirement `v < 2^(8n)` (00_scope.md R8): no byte of it is
dropped (log entry 19). -/
theorem mergeField_lt {f : FieldSpec} {raw old : Nat} (h : old < 2 ^ (8 * spanBytes f)) :
    mergeField f raw old < 2 ^ (8 * spanBytes f) := by
  refine Nat.or_lt_two_pow (Nat.and_le_left.trans_lt h) ?_
  have hm : raw &&& fieldMask f < 2 ^ f.bitLength := by
    rw [fieldMask, Nat.and_two_pow_sub_one_eq_mod]
    exact Nat.mod_lt _ (Nat.two_pow_pos _)
  have hs : startBit f + f.bitLength ≤ 8 * spanBytes f := by unfold spanBytes; omega
  calc (raw &&& fieldMask f) <<< startBit f
      < 2 ^ f.bitLength * 2 ^ startBit f := by
        rw [Nat.shiftLeft_eq]; exact Nat.mul_lt_mul_of_pos_right hm (Nat.two_pow_pos _)
    _ ≤ 2 ^ (8 * spanBytes f) := by
        rw [← Nat.pow_add]; exact Nat.pow_le_pow_right (by decide) (by omega)

/-- Everything ENC can do: BufferSpan when the field does not fit, else one write of the merged
bytes. The model's own stop is not among them. -/
theorem enc_cases (f : FieldSpec) (raw : Nat) (m : Memory) :
    (Config.frameLen < neededBytes f ∧ enc f raw m = .error (.code .bufferSpan))
      ∨ (neededBytes f ≤ Config.frameLen ∧ enc f raw m
          = .ok (m.setValue (firstByte f) (mergeField f raw (m.value (firstByte f) (spanBytes f)))
              (spanBytes f))) := by
  have hs := firstByte_add_spanBytes f
  unfold enc
  split
  · next h => exact .inl ⟨h, rfl⟩
  · next h =>
    have hle : firstByte f + spanBytes f ≤ Config.frameLen := by omega
    exact .inr ⟨by omega, by rw [Memory.load_ok hle]; exact Memory.store_ok hle⟩

/-- ENC keeps the canonical form. -/
theorem wf_enc {f : FieldSpec} {raw : Nat} {m m' : Memory} (hm : m.wf) (h : enc f raw m = .ok m') :
    m'.wf := by
  have hs := firstByte_add_spanBytes f
  rcases enc_cases f raw m with ⟨_, he⟩ | ⟨hn, he⟩ <;> rw [he] at h <;> cases h
  exact Memory.wf_setValue _ hm (by omega)

/-- Everything the transform followed by ENC can do. -/
theorem encPhysical_cases (f : FieldSpec) (p : Int) (t : Nat) (m : Memory) :
    (∃ e, rawOf f p t = .error e ∧ encPhysical f p t m = .error e)
      ∨ (∃ raw, rawOf f p t = .ok raw ∧ encPhysical f p t m = enc f raw m) := by
  unfold encPhysical
  cases h : rawOf f p t with
  | error e => exact .inl ⟨e, rfl, rfl⟩
  | ok raw => exact .inr ⟨raw, rfl, rfl⟩

theorem wf_encPhysical {f : FieldSpec} {p : Int} {t : Nat} {m m' : Memory} (hm : m.wf)
    (h : encPhysical f p t m = .ok m') : m'.wf := by
  rcases encPhysical_cases f p t m with ⟨e, _, he⟩ | ⟨raw, _, he⟩ <;> rw [he] at h
  · cases h
  · exact wf_enc hm h

theorem wf_encFields {l : List (FieldSpec × Nat)} {m m' : Memory} (hm : m.wf)
    (h : encFields l m = .ok m') : m'.wf := by
  induction l generalizing m with
  | nil => cases h; exact hm
  | cons a l ih =>
    obtain ⟨f, v⟩ := a
    rw [encFields] at h
    cases he : encPhysical f v v m with
    | error e => rw [he] at h; cases h
    | ok m1 => rw [he] at h; exact ih (wf_encPhysical hm he) h

theorem wf_zeroFrame {m m' : Memory} (hm : m.wf) (h : zeroFrame m = .ok m') : m'.wf :=
  Memory.wf_store hm h

theorem wf_renderFrame {s : State} {m : Memory} (hm : s.frame.wf) (h : renderFrame s = .ok m) :
    m.wf := by
  rw [renderFrame, zeroFrame_eq] at h
  exact wf_encFields (wf_zeroFrame hm (zeroFrame_eq s.frame)) h

theorem wf_encodeRaw {fld : FieldIndex} {arg : Operand} {m m' : Memory} (hm : m.wf)
    (h : encodeRaw fld arg m = .ok m') : m'.wf := by
  unfold encodeRaw at h
  cases hf : fieldAt fld with
  | error e => rw [hf] at h; cases h
  | ok f => rw [hf] at h; exact wf_enc hm h

theorem wf_encodePhysical {fld : FieldIndex} {arg : Operand} {m m' : Memory} (hm : m.wf)
    (h : encodePhysical fld arg m = .ok m') : m'.wf := by
  unfold encodePhysical at h
  cases hf : fieldAt fld with
  | error e => rw [hf] at h; cases h
  | ok f => rw [hf] at h; exact wf_encPhysical hm h

end Sys2Proof.Machine
end

