-- ==== Sys2Proof/Laws/PerInstr.lean ====
section
/-! SUPPORT. The per-instruction family `EncodesInRow`: the word of an instruction selects the row of
the opcode map that has its mnemonic, and no other row (30_encoding.md R52, R63). -/

namespace Sys2Proof.Laws

/-- The word of `i` selects the rows of the opcode map with the mnemonic of `i`, and only those. -/
def EncodesInRow.Statement (i : Instr) : Prop :=
  ∀ r ∈ opcodeTable, r.selects (encode i) = decide (r.mnemonic = i.mnemonic)

/-- Masking acts on the three parts of a word apart. -/
theorem assembleWord_and (op op' : BitVec 4) (fld fld' : FieldIndex) (arg arg' : Operand) :
    assembleWord op fld arg &&& assembleWord op' fld' arg'
      = assembleWord (op &&& op') (fld &&& fld') (arg &&& arg') := by
  unfold assembleWord
  apply BitVec.eq_of_getLsbD_eq
  intro i hi
  simp only [BitVec.getLsbD_and, BitVec.getLsbD_append]
  split
  · rfl
  · split <;> rfl

/-- The opcode of an assembled word. -/
theorem opField_assembleWord (op : BitVec 4) (fld : FieldIndex) (arg : Operand) :
    opField (assembleWord op fld arg) = op := by
  unfold opField assembleWord
  apply BitVec.eq_of_getLsbD_eq
  intro i hi
  simp only [BitVec.getLsbD_extractLsb', BitVec.getLsbD_append]
  rw [if_neg (by omega), if_neg (by omega), show 36 + i - 32 - 4 = i by omega]
  simp [hi]

/-- The field index of an assembled word. -/
theorem fldField_assembleWord (op : BitVec 4) (fld : FieldIndex) (arg : Operand) :
    fldField (assembleWord op fld arg) = fld := by
  unfold fldField assembleWord
  apply BitVec.eq_of_getLsbD_eq
  intro i hi
  simp only [BitVec.getLsbD_extractLsb', BitVec.getLsbD_append]
  rw [if_neg (by omega), if_pos (by omega), show 32 + i - 32 = i by omega]
  simp [hi]

/-- The operand of an assembled word. -/
theorem argField_assembleWord (op : BitVec 4) (fld : FieldIndex) (arg : Operand) :
    argField (assembleWord op fld arg) = arg := by
  unfold argField assembleWord
  apply BitVec.eq_of_getLsbD_eq
  intro i hi
  simp only [BitVec.getLsbD_extractLsb', BitVec.getLsbD_append]
  rw [if_pos (by omega), show 0 + i = i by omega]
  simp [hi]

/-- A word is its three parts. -/
theorem assembleWord_inj {op op' : BitVec 4} {fld fld' : FieldIndex} {arg arg' : Operand} :
    assembleWord op fld arg = assembleWord op' fld' arg' ↔ op = op' ∧ fld = fld' ∧ arg = arg' := by
  refine ⟨fun h => ⟨?_, ?_, ?_⟩, fun ⟨h1, h2, h3⟩ => by rw [h1, h2, h3]⟩
  · rw [← opField_assembleWord op fld arg, h, opField_assembleWord]
  · rw [← fldField_assembleWord op fld arg, h, fldField_assembleWord]
  · rw [← argField_assembleWord op fld arg, h, argField_assembleWord]

/-- Which rows a word selects, part by part. -/
theorem selects_rows (op : BitVec 4) (fld : FieldIndex) (arg : Operand) :
    opcodeTable.map (fun r => r.selects (assembleWord op fld arg)) =
      [ decide (op = 1 ∧ fld = 0 ∧ arg = 0), decide (op = 2 ∧ fld = 0),
        decide (op = 3 ∧ fld = 0), decide (op = 4 ∧ fld = 0 ∧ arg = 0),
        decide (op = 5 ∧ fld = 0 ∧ arg = 0), decide (op = 6 ∧ fld = 0 ∧ arg = 0),
        decide (op = 7), decide (op = 8) ] := by
  have bare : (0xFFFFFFFFFF#40) = assembleWord 0xF#4 0xF#4 0xFFFFFFFF#32 := rfl
  have one : (0xFF00000000#40) = assembleWord 0xF#4 0xF#4 0#32 := rfl
  have field : (0xF000000000#40) = assembleWord 0xF#4 0#4 0#32 := rfl
  have r1 : (0x1000000000#40) = assembleWord 1 0 0 := rfl
  have r2 : (0x2000000000#40) = assembleWord 2 0 0 := rfl
  have r3 : (0x3000000000#40) = assembleWord 3 0 0 := rfl
  have r4 : (0x4000000000#40) = assembleWord 4 0 0 := rfl
  have r5 : (0x5000000000#40) = assembleWord 5 0 0 := rfl
  have r6 : (0x6000000000#40) = assembleWord 6 0 0 := rfl
  have r7 : (0x7000000000#40) = assembleWord 7 0 0 := rfl
  have r8 : (0x8000000000#40) = assembleWord 8 0 0 := rfl
  have h4 : ∀ x : BitVec 4, x &&& 0xF#4 = x := fun x => BitVec.and_allOnes
  have h32 : ∀ x : BitVec 32, x &&& 0xFFFFFFFF#32 = x := fun x => BitVec.and_allOnes
  have z4 : ∀ x : BitVec 4, x &&& 0#4 = 0 := fun x => BitVec.and_zero
  have z32 : ∀ x : BitVec 32, x &&& 0#32 = 0 := fun x => BitVec.and_zero
  simp only [opcodeTable, List.map_cons, List.map_nil, OpcodeRow.selects, r1, r2, r3, r4, r5, r6,
    r7, r8, bare, one, field, assembleWord_and, h4, h32, z4, z32]
  simp only [Bool.beq_eq_decide_eq, assembleWord_inj, and_true]

/-- The family, from which rows a word selects. -/
theorem encodesInRow_of_rows {i : Instr}
    (h : opcodeTable.map (fun r => r.selects (encode i))
      = opcodeTable.map (fun r => decide (r.mnemonic = i.mnemonic))) : EncodesInRow.Statement i :=
  List.map_inj_left.1 h

theorem EncodesInRow.reset : EncodesInRow.Statement .reset :=
  encodesInRow_of_rows (by decide)

theorem EncodesInRow.seten (arg : Operand) : EncodesInRow.Statement (.seten arg) :=
  encodesInRow_of_rows ((selects_rows 2 0 arg).trans (by simp [opcodeTable, Instr.mnemonic]))

theorem EncodesInRow.setcmd (arg : Operand) : EncodesInRow.Statement (.setcmd arg) :=
  encodesInRow_of_rows ((selects_rows 3 0 arg).trans (by simp [opcodeTable, Instr.mnemonic]))

theorem EncodesInRow.render : EncodesInRow.Statement .render :=
  encodesInRow_of_rows (by decide)

theorem EncodesInRow.getper : EncodesInRow.Statement .getper :=
  encodesInRow_of_rows (by decide)

theorem EncodesInRow.getid : EncodesInRow.Statement .getid :=
  encodesInRow_of_rows (by decide)

theorem EncodesInRow.encu (fld : FieldIndex) (arg : Operand) :
    EncodesInRow.Statement (.encu fld arg) :=
  encodesInRow_of_rows ((selects_rows 7 fld arg).trans (by simp [opcodeTable, Instr.mnemonic]))

theorem EncodesInRow.encp (fld : FieldIndex) (arg : Operand) :
    EncodesInRow.Statement (.encp fld arg) :=
  encodesInRow_of_rows ((selects_rows 8 fld arg).trans (by simp [opcodeTable, Instr.mnemonic]))

end Sys2Proof.Laws
end

