-- ==== Sys2Proof/Laws/Run.lean ====
section
/-! SUPPORT. The end of a run (70_reset_and_hazards.md R152) beside the state after every event. -/

namespace Sys2Proof.Machine

/-- A last event that is a command is the last command. -/
theorem eventsToLastCommand_append_command {e : PortEvent} (es : List PortEvent)
    (he : e.isCommand = true) : eventsToLastCommand (es ++ [e]) = es.length + 1 := by
  induction es with
  | nil => simp [eventsToLastCommand, he]
  | cons x es ih => simp [eventsToLastCommand, ih]

/-- A hardware reset after the last command is not part of the run. -/
@[simp] theorem eventsToLastCommand_append_reset (es : List PortEvent)
    (p : Option CommandPorts) :
    eventsToLastCommand (es ++ [.hardwareReset p]) = eventsToLastCommand es := by
  induction es with
  | nil => rfl
  | cons x es ih => simp [eventsToLastCommand, ih]

/-- Where the host's list ends in a command, the state after every event is the end of the run. -/
theorem runAll_eq_endOfRun {s : State} {es : List PortEvent} {e : PortEvent}
    (h : s.pending = es ++ [e]) (he : e.isCommand = true) : s.runAll = s.endOfRun := by
  rw [State.runAll, State.endOfRun, h, eventsToLastCommand_append_command es he,
    List.length_append, List.length_singleton]

end Sys2Proof.Machine
end

