-- ==== Sys2Proof/Laws/Step.lean ====
section
/-! SUPPORT. What the step does with each kind of event. -/

namespace Sys2Proof.Machine

/-- Everything the step can do: wait, run a command word, or reset. -/
theorem step_cases (s : State) :
    (s.pending = [] ∧ step s = .next s)
      ∨ (∃ c rest, s.pending = .command c :: rest
          ∧ step s = acceptWord c.word (s.setPending rest))
      ∨ (∃ p rest, s.pending = .hardwareReset p :: rest
          ∧ step s = .next (s.setPending rest).hardwareReset) := by
  unfold step serve
  cases h : s.pending with
  | nil => exact .inl ⟨rfl, rfl⟩
  | cons e rest =>
    cases e with
    | command c => exact .inr (.inl ⟨c, rest, rfl, rfl⟩)
    | hardwareReset p => exact .inr (.inr ⟨p, rest, rfl, rfl⟩)

/-- Everything an accepted word can do. -/
theorem acceptWord_cases (w : CommandWord) (s : State) :
    (∃ e, decode w = .error e ∧ acceptWord w s = raiseIllegal s)
      ∨ (∃ i, decode w = .ok i ∧ acceptWord w s = exec i s) := by
  unfold acceptWord
  cases h : decode w with
  | error e => exact .inl ⟨e, rfl, rfl⟩
  | ok i => exact .inr ⟨i, rfl, rfl⟩

/-- The ports show the word they were given (30_encoding.md R51). -/
theorem word_portsOfWord (w : CommandWord) : (portsOfWord w).word = w := by
  unfold portsOfWord CommandPorts.word assembleWord opField fldField argField
  apply BitVec.eq_of_getLsbD_eq
  intro i hi
  simp only [BitVec.getLsbD_append, BitVec.getLsbD_extractLsb']
  split
  · simp_all
  · split
    · next h1 h2 => simp [h2, show 32 + (i - 32) = i by omega]
    · next h1 h2 => simp [show i - 32 - 4 < 4 by omega, show 36 + (i - 32 - 4) = i by omega]

/-- The step after a word was presented accepts that word (used for `State.withFetchWord`). -/
theorem step_withFetchWord (s : State) (nbits w : Nat) :
    step (s.withFetchWord nbits w) = acceptWord (tableWord nbits w) s := by
  unfold step serve State.withFetchWord presentFirst
  simp only [State.setPending_pending, acceptEvent, word_portsOfWord]
  rfl

/-! ### The host's run -/

theorem run_zero (s : State) : Sys2Proof.core.run 0 s = .next s := rfl

/-- A run goes on from the next state. -/
theorem run_next {k : Nat} {s s' : State} (h : step s = .next s') :
    Sys2Proof.core.run (k + 1) s = Sys2Proof.core.run k s' := by
  have e := Host.Core.run.eq_2 Sys2Proof.core s k
  have h' : Sys2Proof.core.step s = .next s' := h
  rwa [h'] at e

/-- A run stops at a fault. -/
theorem run_fault {k : Nat} {s : State} {r : Fault} (h : step s = .fault r) :
    Sys2Proof.core.run (k + 1) s = .fault r := by
  have e := Host.Core.run.eq_2 Sys2Proof.core s k
  have h' : Sys2Proof.core.step s = .fault r := h
  rwa [h'] at e

/-- A run stops at a refusal. -/
theorem run_refused {k : Nat} {s : State} {r : Refusal} (h : step s = .refused r) :
    Sys2Proof.core.run (k + 1) s = .refused r := by
  have e := Host.Core.run.eq_2 Sys2Proof.core s k
  have h' : Sys2Proof.core.step s = .refused r := h
  rwa [h'] at e

end Sys2Proof.Machine
end

