-- ==== Sys2Proof/Tests/Slice0.lean ====
section
/-! SUPPORT. The model's own tests: the checks refuse an ill-formed term each, the decoder reads words
written out from the spec's encodings, single commands give the spec's vectors (95_test_vectors.md),
and the hypotheses of every statement are met by a concrete state. -/

namespace Sys2Proof.Tests

open Sys2Proof.Machine

/-! ### Helpers -/

/-- The next state of an outcome, when there is one. -/
def next? (r : Result) : Option State :=
  match r with
  | .next s => some s
  | .fault _ => none
  | .refused _ => none

/-- The start state of 95_test_vectors.md section 7: EN = 1, CMD = 42, FRAME = 01 2A 00 ... -/
def demo : State := { State.reset with en := 1, cmd := 42, frame := [(0, 0x01), (1, 0x2A)] }

/-- The faulted state of 95_test_vectors.md section 8. -/
def faulted : State :=
  { State.reset with en := 1, cmd := 10, frame := [(0, 0x01), (1, 0x0A)], fault := true, fcode := 2 }

/-- A word presented on the ports. -/
def presented (w : CommandWord) (s : State) : State := presentFirst (.command (portsOfWord w)) s

/-- The events of a frame built by hand. -/
def handEvents : List PortEvent :=
  [Instr.reset, .encp 0 1, .encu 1 77].map (fun i => .command (portsOfWord (encode i)))

/-- A buffer of 0xFF bytes. -/
def ones : Memory := (List.range 8).map (fun k => (k, 0xFF#8))

/-- A hypothetical unsigned intel field (95_test_vectors.md sections 2 and 4). -/
def field (off len : Nat) (precision offset : Rat) : FieldSpec :=
  { Config.brakePedalCmd with
    bitOffset := off, bitLength := len, precision := precision, offset := offset }

/-! ### WellFormed: each check refuses an ill-formed term (10_state.md R22, 30_encoding.md R60) -/

theorem test_wf_length_zero : (field 0 0 1 0).wellFormed 8 = false := by decide
theorem test_wf_length_over : (field 0 65 1 0).wellFormed 9 = false := by decide
theorem test_wf_span : (field 60 5 1 0).wellFormed 8 = false := by decide
theorem test_wf_order :
    { Config.brakePedalCmd with byteOrder := .motorola }.wellFormed 8 = false := by decide
theorem test_wf_signed : { Config.brakePedalCmd with signed := true }.wellFormed 8 = false := by
  decide
theorem test_wf_precision : (field 8 8 0 0).wellFormed 8 = false := by decide
theorem test_wf_range : { Config.brakePedalCmd with physMin := 101 }.wellFormed 8 = false := by
  decide
theorem test_wf_codes_empty :
    { Config.brakePedalEnCtrl with kind := .enum [] [] }.wellFormed 8 = false := by decide
theorem test_wf_code_too_wide :
    { Config.brakePedalEnCtrl with kind := .enum [256] ["X"] }.wellFormed 8 = false := by decide
theorem test_wf_edge : (field 60 4 1 0).wellFormed 8 = true := by decide

theorem test_asm_seten_range :
    (AsmLine.seten (.number 4294967296)).wellFormed Config.fields.entries = false := by decide
theorem test_asm_setcmd_range :
    (AsmLine.setcmd 2147483648).wellFormed Config.fields.entries = false := by decide
theorem test_asm_encu_index :
    (AsmLine.encu 16 0).wellFormed Config.fields.entries = false := by decide
theorem test_asm_encu_raw :
    (AsmLine.encu 0 (-1)).wellFormed Config.fields.entries = false := by decide
theorem test_asm_encp_range :
    (AsmLine.encp 0 (.number (-2147483649))).wellFormed Config.fields.entries = false := by decide
theorem test_asm_encp_name_needs_enum :
    (AsmLine.encp 1 .enable).wellFormed Config.fields.entries = false := by decide
theorem test_asm_word_range :
    (AsmLine.word (2 ^ 40)).wellFormed Config.fields.entries = false := by decide

/-! ### Decode: words written out from 30_encoding.md R52 and 95_test_vectors.md section 5 -/

theorem test_decode_reset :
    decode 0b0001_0000_00000000000000000000000000000000#40 = .ok .reset := by decide
theorem test_decode_seten :
    decode 0b0010_0000_00000000000000000000000000000001#40 = .ok (.seten 1) := by decide
theorem test_decode_setcmd :
    decode 0b0011_0000_11111111111111111111111111111011#40 = .ok (.setcmd 0xFFFFFFFB) := by decide
theorem test_decode_render :
    decode 0b0100_0000_00000000000000000000000000000000#40 = .ok .render := by decide
theorem test_decode_getper :
    decode 0b0101_0000_00000000000000000000000000000000#40 = .ok .getper := by decide
theorem test_decode_getid :
    decode 0b0110_0000_00000000000000000000000000000000#40 = .ok .getid := by decide
theorem test_decode_encu :
    decode 0b0111_0001_00000000000000000000000000101010#40 = .ok (.encu 1 42) := by decide
theorem test_decode_encp :
    decode 0b1000_1111_10000000000000000000000000000001#40 = .ok (.encp 15 0x80000001) := by decide
theorem test_decode_zero : decode 0x0000000000#40 = .error (.reservedOpcode 0) := by decide
theorem test_decode_ones : decode 0xFFFFFFFFFF#40 = .error (.reservedOpcode 15) := by decide
theorem test_decode_nine : decode 0x9000000000#40 = .error (.reservedOpcode 9) := by decide
theorem test_decode_reset_arg : decode 0x1000000001#40 = .error (.mustBeZero 1) := by decide
theorem test_decode_render_fld : decode 0x4100000000#40 = .error (.mustBeZero 4) := by decide
theorem test_decode_seten_fld : decode 0x2100000001#40 = .error (.mustBeZero 2) := by decide
theorem test_decode_getid_fld : decode 0x6F00000000#40 = .error (.mustBeZero 6) := by decide
theorem test_decodeTableWord : decodeTableWord 40 0x710000002A = some (.encu 1 42) := by decide
theorem test_encode_setcmd : encode (.setcmd 0xFFFFFFFB) = 0x30FFFFFFFB#40 := by decide

/-! ### P2R, ENUMENC, ENC: rows of 95_test_vectors.md sections 2 to 4 -/

theorem test_p2r_width_clamp : p2r Config.brakePedalCmd 300 = 255 := by decide
theorem test_p2r_negative : p2r Config.brakePedalCmd (-5) = 0 := by decide
theorem test_p2r_tie : p2r (field 0 8 2 0) 5 = 3 := by decide
theorem test_p2r_quarters : p2r (field 0 8 4 10) 17 = 2 := by decide
theorem test_p2r_negative_precision : p2r (field 0 8 (-2) 0) (-5) = 3 := by decide
theorem test_p2r_tenths : p2r (field 0 16 ⟨1, 10, by decide, by decide⟩ (-40)) 25 = 650 := by decide
theorem test_p2r_half_offset : p2r (field 0 8 1 ⟨-101, 2, by decide, by decide⟩) (-50) = 1 := by
  decide
theorem test_enumenc_codes : enumenc [3, 0, 7] 2 = .ok 7 := by decide
theorem test_enumenc_domain : enumenc [3, 0, 7] 3 = .error (.code .enumDomain) := by decide
theorem test_enc_crosses_bytes : enc (field 4 12 1 0) 0xABC [] = .ok [(0, 0xC0), (1, 0xAB)] := by
  decide
theorem test_enc_row7 : enc (field 12 9 1 0) 0x155 [] = .ok [(1, 0x50), (2, 0x15)] := by decide
theorem test_enc_keeps_neighbours :
    (enc (field 4 12 1 0) 0 ones).toOption.map (fun m => m.byte 0) = some 0x0F := by decide
theorem test_enc_top_bit : enc (field 63 1 1 0) 1 [] = .ok [(7, 0x80)] := by decide
theorem test_enc_truncates : enc (field 8 8 1 0) 0x12A [] = .ok [(1, 0x2A)] := by decide
theorem test_enc_span : enc (field 60 5 1 0) 0x1F ones = .error (.code .bufferSpan) := by decide

/-! ### Single commands: 95_test_vectors.md sections 6 to 8 -/

theorem test_reset : (next? (exec .reset demo)).map (fun s => (s.frame, s.en, s.cmd))
    = some ([], 1, 42) := by decide
theorem test_seten : (next? (exec (.seten 0) demo)).map State.en = some 0 := by decide
theorem test_seten_domain : (next? (exec (.seten 2) demo)).map (fun s => (s.en, s.fcode))
    = some (1, 2) := by decide
theorem test_setcmd_signed :
    (next? (exec (.setcmd 0xFFFFFFFF) demo)).map State.cmd = some 0 := by decide
theorem test_setcmd_full_width :
    (next? (exec (.setcmd 256) demo)).map State.cmd = some 100 := by decide
theorem test_render : (next? (exec .render { demo with frame := ones })).map State.frame
    = some [(0, 0x01), (1, 0x2A)] := by decide
theorem test_getper :
    exec .getper demo = .next { demo with responses := [⟨false, Config.periodMs⟩] } := rfl
theorem test_getid : (next? (exec .getid demo)).map State.responses
    = some [⟨false, 0x00000111⟩] := by decide
theorem test_encu_no_enum_check : (next? (exec (.encu 0 0xFF) demo)).map State.frame
    = some [(0, 0xFF), (1, 0x2A)] := by decide
theorem test_encu_field_index : (next? (exec (.encu 2 0) demo)).map (fun s => (s.frame, s.fcode))
    = some (demo.frame, 3) := by decide
theorem test_encp_no_range_clamp : (next? (exec (.encp 1 150) demo)).map State.frame
    = some [(0, 0x01), (1, 0x96)] := by decide
theorem test_encp_index_before_domain :
    (next? (exec (.encp 5 9) demo)).map State.responses = some [⟨true, 3⟩] := by decide
theorem test_illegal_word :
    (next? (step (presented 0x0000000000#40 demo))).map (fun s => (s.fault, s.fcode))
      = some (true, 1) := by decide
theorem test_refused :
    next? (step (presented 0x3000000032#40 faulted))
      = some { faulted with responses := [⟨true, 2⟩] } := by decide
theorem test_hardware_reset :
    next? (step { faulted with pending := [.hardwareReset (some ⟨4, 0, 0⟩)] })
      = some State.reset := by decide
theorem test_frame_q : demo.outputs.frameQ = 0x0000000000002A01 := by decide
theorem test_fetch_word :
    (next? (step (State.reset.withFetchWord 40 0x300000002A))).map State.cmd = some 42 := by decide

/-! ### The assembler: 30_encoding.md R60 and 95_test_vectors.md section 9 -/

theorem test_asm_setcmd : assembleText "SETCMD -5 ; comment" = some (some 0x30FFFFFFFB#40) := by
  decide
theorem test_asm_seten : assembleText "SETEN ENABLE" = some (some 0x2000000001#40) := by decide
theorem test_asm_encu : assembleText "ENCU 1, 0xFF" = some (some 0x71000000FF#40) := by decide
theorem test_asm_encp : assembleText "ENCP 15, 1" = some (some 0x8F00000001#40) := by decide
theorem test_asm_word : assembleText ".word 0x9000000000" = some (some 0x9000000000#40) := by decide
theorem test_asm_comment : assembleText "  ; nothing" = some none := by decide
theorem test_asm_lower_case : assembleText "render" = none := by decide

/-! ### Witnesses: a concrete state and operands that meet all hypotheses of each statement -/

theorem witness_EncodeDecodeRoundTrip : decode 0x81FFFFFFFB#40 = .ok (.encp 1 0xFFFFFFFB) := by
  decide
theorem witness_DecodedWordMatchesItsRowOnly : decode 0x7F00000000#40 = .ok (.encu 15 0) := by
  decide
theorem witness_AssembledLineDecodesToItsCommand :
    asmInstr (.encp 0 .enable) = some (.encp 0 1)
      ∧ (AsmLine.encp 0 .enable).wellFormed Config.fields.entries = true := by decide
theorem witness_StepRunsTheDecodedCommand :
    (presented 0x300000002A#40 demo).pending = [.command ⟨3, 0, 42⟩]
      ∧ decode (CommandPorts.word ⟨3, 0, 42⟩) = .ok (.setcmd 42) := by decide
theorem witness_CommandStepFollowsTheStepFunction_faulted :
    (presented 0x4000000000#40 faulted).pending = [.command ⟨4, 0, 0⟩]
      ∧ (presented 0x4000000000#40 faulted).fault = true := by decide
theorem witness_CommandStepFollowsTheStepFunction_illegal :
    (presented 0x9000000000#40 demo).pending = [.command ⟨9, 0, 0⟩]
      ∧ (presented 0x9000000000#40 demo).fault = false
      ∧ decode (CommandPorts.word ⟨9, 0, 0⟩) = .error (.reservedOpcode 9) := by decide
theorem witness_CommandStepFollowsTheStepFunction_decoded :
    (presented 0x8000000002#40 demo).pending = [.command ⟨8, 0, 2⟩]
      ∧ (presented 0x8000000002#40 demo).fault = false
      ∧ decode (CommandPorts.word ⟨8, 0, 2⟩) = .ok (.encp 0 2) := by decide
theorem witness_StepWaitsWithoutAnEvent : demo.pending = [] := by decide
theorem witness_HardwareResetRestoresEveryPieceOfState :
    ({ faulted with pending := [.hardwareReset (some ⟨4, 0, 0⟩)] } : State).pending
      = .hardwareReset (some ⟨4, 0, 0⟩) :: [] := by decide
theorem witness_EveryCommandGivesOneResponse :
    (presented 0x6000000000#40 demo).pending = .command ⟨6, 0, 0⟩ :: [] := by decide
theorem witness_ResetCommandZeroFillsTheFrame : demo.fault = false ∧ demo.frame ≠ [] := by decide
theorem witness_SetenStoresTheVariantTag :
    demo.fault = false ∧ (0#32).toNat < 2 ∧ (1#32).toNat < 2 ∧ 2 ≤ (2#32).toNat
      ∧ 2 ≤ (0xFFFFFFFF#32).toNat := by decide
theorem witness_SetcmdStoresTheSaturatedPercentage :
    demo.fault = false ∧ (0xFFFFFFFF#32).toInt < 0 ∧ ¬ (0#32).toInt < 0 ∧ ¬ 100 < (100#32).toInt
      ∧ 100 < (101#32).toInt ∧ (0x80000000#32).toInt < 0 := by decide
theorem witness_RenderMarshalsTheLogicalState : ({ demo with frame := ones } : State).fault = false := by
  decide
theorem witness_GetperReportsThePeriod : demo.fault = false := by decide
theorem witness_GetidReportsTheIdentifier : demo.fault = false := by decide
theorem witness_EncuWritesTheRawBitsOfItsField :
    demo.fault = false
      ∧ Config.fields.entries[(1#4).toNat]? = some Config.brakePedalCmd
      ∧ Config.fields.entries.length ≤ (2#4).toNat := by decide
theorem witness_EncpWritesTheEncodedValueOfItsField_numeric :
    demo.fault = false
      ∧ Config.fields.entries[(1#4).toNat]? = some Config.brakePedalCmd
      ∧ Config.brakePedalCmd.kind = .numeric
      ∧ 150 = p2r Config.brakePedalCmd (150#32).toInt := by decide
theorem witness_EncpWritesTheEncodedValueOfItsField_enum :
    demo.fault = false
      ∧ Config.fields.entries[(0#4).toNat]? = some Config.brakePedalEnCtrl
      ∧ Config.brakePedalEnCtrl.kind = .enum [0, 1] ["DISABLE", "ENABLE"]
      ∧ [0, 1][(1#32).toNat]? = some 1 ∧ [0, 1].length ≤ (2#32).toNat
      ∧ Config.fields.entries.length ≤ (2#4).toNat := by decide
theorem witness_EncpOnTheDeviceFields :
    demo.fault = false ∧ (0xFFFFFFFF#32).toInt < 0 ∧ ¬ 255 < (255#32).toInt ∧ 255 < (256#32).toInt
      ∧ (1#32).toNat < 2 := by decide
theorem witness_UnmatchedWordRaisesIllegalCommand :
    (presented 0x4100000000#40 demo).pending = .command ⟨4, 1, 0⟩ :: []
      ∧ (presented 0x4100000000#40 demo).fault = false
      ∧ (∀ r ∈ opcodeTable, CommandPorts.word ⟨4, 1, 0⟩ &&& r.mask ≠ r.matchBits)
      ∧ (0x0000000000#40).extractLsb' 36 4 = 0x0#4
      ∧ 0x9#4 ≤ (0x9000000000#40).extractLsb' 36 4
      ∧ 0x9#4 ≤ (0xFFFFFFFFFF#40).extractLsb' 36 4 := by decide
theorem witness_FaultedBlockRefusesEveryCommand :
    (presented 0x0000000000#40 faulted).fault = true
      ∧ (presented 0x0000000000#40 faulted).pending = .command ⟨0, 0, 0⟩ :: [] := by decide
theorem witness_FaultEntryChangesOnlyTheStatus :
    (presented 0x2000000002#40 demo).pending = .command ⟨2, 0, 2⟩ :: []
      ∧ (presented 0x2000000002#40 demo).fault = false
      ∧ ∃ t, step (presented 0x2000000002#40 demo) = .next t ∧ t.fault = true :=
  ⟨by decide, by decide, _, rfl, rfl⟩
theorem witness_OnlyHardwareResetLeavesTheFault :
    (presented 0x4000000000#40 faulted).fault = true
      ∧ ∃ t, step (presented 0x4000000000#40 faulted) = .next t := ⟨by decide, _, rfl⟩
theorem witness_EnumDomainIsRaisedByTheOutOfSetTag :
    demo.fault = false ∧ 2 ≤ (2#32).toNat
      ∧ Config.fields.entries[(0#4).toNat]? = some Config.brakePedalEnCtrl
      ∧ Config.brakePedalEnCtrl.kind = .enum [0, 1] ["DISABLE", "ENABLE"]
      ∧ [0, 1].length ≤ (2#32).toNat := by decide
theorem witness_FieldIndexIsRaisedBeyondTheTable :
    demo.fault = false ∧ 2 ≤ (2#4).toNat ∧ 2 ≤ (15#4).toNat := by decide
theorem witness_BufferSpanIsRaisedByEncAndByNoCommand :
    Config.frameLen < ((field 60 5 1 0).bitOffset + (field 60 5 1 0).bitLength + 7) / 8
      ∧ demo.fault = false ∧ ∃ t, exec (.seten 2) demo = .next t ∧ t.fault = true :=
  ⟨by decide, by decide, _, rfl, rfl⟩
theorem witness_OutOfRangeValuesNeverFault :
    demo.fault = false
      ∧ Config.fields.entries[(1#4).toNat]? = some Config.brakePedalCmd
      ∧ Config.brakePedalCmd.kind = .numeric ∧ (1#4).toNat < Config.nFields := by decide
theorem witness_RenderEqualsResetThenFieldWrites : demo.fault = false := by decide
theorem witness_RenderedBytesDependOnTheLogicalStateOnly :
    demo.en = ({ demo with frame := ones } : State).en
      ∧ demo.cmd = ({ demo with frame := ones } : State).cmd ∧ demo.fault = false
      ∧ (∃ t, exec .render demo = .next t)
      ∧ ∃ t u, exec .render { demo with frame := ones } = .next t ∧ exec .render t = .next u :=
  ⟨by decide, by decide, by decide, ⟨_, rfl⟩, _, _, rfl, rfl⟩
theorem witness_RenderAlwaysProducesAWellFormedFrame :
    ({ demo with cmd := 100 } : State).cmd.toNat ≤ 100
      ∧ ({ demo with cmd := 100 } : State).fault = false
      ∧ faulted.cmd.toNat ≤ 100 ∧ faulted.fault = true := by decide
theorem witness_SettersCommuteAndTheLaterWins :
    demo.fault = false ∧ (1#32).toNat < 2 ∧ (0#32).toNat < 2 := by decide
theorem witness_FrameWritersAreIdempotent :
    demo.fault = false ∧ ∃ t u, exec (.encp 1 150) demo = .next t ∧ exec (.encp 1 150) t = .next u :=
  ⟨by decide, _, _, rfl, rfl⟩
theorem witness_OnlyTheNamedCommandsWriteEachRegister :
    (presented 0x3000000063#40 demo).pending = .command ⟨3, 0, 99⟩ :: []
      ∧ ∃ t, step (presented 0x3000000063#40 demo) = .next t ∧ t.cmd ≠ demo.cmd :=
  ⟨by decide, _, rfl, by decide⟩
theorem witness_EncReplacesExactlyTheFieldBits :
    Config.frameLen < ((field 57 8 1 0).bitOffset + (field 57 8 1 0).bitLength + 7) / 8
      ∧ ((field 57 7 1 0).bitOffset + (field 57 7 1 0).bitLength + 7) / 8 ≤ Config.frameLen := by
  decide
theorem witness_EncLaws :
    neededBytes (field 4 12 1 0) ≤ Config.frameLen ∧ neededBytes (field 16 48 1 0) ≤ Config.frameLen
      ∧ (field 4 12 1 0).bitOffset + (field 4 12 1 0).bitLength ≤ (field 16 48 1 0).bitOffset := by
  decide
theorem witness_P2rRoundsTheExactQuotient : (field 0 8 (-2) 0).precision ≠ 0 := by decide
theorem witness_P2rIsMonotone :
    (-5 : Int) ≤ 300 ∧ 0 < (field 0 8 2 0).precision ∧ (field 0 8 (-2) 0).precision < 0 := by decide
theorem witness_EnumencMapsTagsToCodes :
    Config.brakePedalEnCtrl.kind = .enum [0, 1] ["DISABLE", "ENABLE"] ∧ [0, 1].length ≤ 2
      ∧ 1 < [0, 1].length ∧ Config.brakePedalEnCtrl.wellFormed Config.frameLen = true := by decide
theorem witness_SpanFitsTheBound : (field 0 64 1 0).wellFormed Config.frameLen = true := by decide
theorem witness_FrameBitIsABitOfItsByte : 63 < 8 * Config.frameLen := by decide
theorem witness_OutputPortsShowTheState : 7 < Config.frameLen := by decide
theorem witness_EveryStepKeepsTheInvariant :
    (presented 0x2000000002#40 demo).Inv ∧ ∃ t, step (presented 0x2000000002#40 demo) = .next t :=
  ⟨by decide, _, rfl⟩
theorem witness_ReachableStatesKeepTheStateRules :
    (State.launch []).Reachable ∧ ∃ t, exec .render (State.launch []) = .next t ∧ t.fault = false :=
  ⟨⟨[], 0, rfl⟩, _, rfl, rfl⟩
theorem witness_ReachableStatesKeepTheStateRules_faulted :
    ∃ s : State, s.Reachable ∧ s.fault = true ∧ s.fcode = 2 :=
  ⟨_, ⟨[.command ⟨2, 0, 7⟩], 1, rfl⟩, rfl, rfl⟩
theorem witness_FaultedBlockIsFrozenAlongARun :
    (presented 0x1000000000#40 faulted).fault = true
      ∧ ∀ e ∈ (presented 0x1000000000#40 faulted).pending, e.isCommand = true := by decide
theorem witness_RunEndingInRenderLeavesARenderedFrame :
    endsInRender [.command ⟨2, 0, 1⟩, .command ⟨4, 0, 0⟩] = true
      ∧ (next? (State.launch [.command ⟨2, 0, 1⟩, .command ⟨4, 0, 0⟩]).runAll).map State.fault
        = some false := by decide
theorem witness_HandBuiltFrameIsZeroOutsideTheFields :
    handBuild [.reset, .encp 0 1, .encu 1 77] = true
      ∧ (next? (demo.setPending handEvents).runAll).map (fun t => (t.fault, t.frame))
        = some (false, [(0, 0x01), (1, 0x4D)]) := by decide
/-- 70_reset_and_hazards.md R152: SETEN 2 as the last command ends the run with FAULT = 1, whatever reset
follows it. -/
theorem test_trailing_reset_is_no_successful_end :
    let s := State.launch [.command ⟨2, 0, 2⟩, .hardwareReset none]
    (next? s.endOfRun).map State.fault = some true
      ∧ (next? s.runAll).map State.fault = some false := by decide
theorem witness_EffectDependsOnTheBlockStateOnly :
    demo.block = ({ demo with responses := [⟨false, 0⟩] } : State).block
      ∧ (∃ t, exec (.encp 1 7) demo = .next t)
      ∧ ∃ t, exec (.encp 1 7) { demo with responses := [⟨false, 0⟩] } = .next t :=
  ⟨by decide, ⟨_, rfl⟩, _, rfl⟩

end Sys2Proof.Tests
end

section
/-! The output ports (10_state.md R26): W read bit by bit and byte by byte, and O47. -/

namespace Sys2Proof.Machine

/-! ### The bits of a read -/

/-- A little-endian read in its bytes: bit `b` of `n` bytes from address `k` lies in byte `b / 8` of
them, and there are none from `8n` up (00_scope.md R8). -/
theorem Memory.testBit_value (m : Memory) (k n b : Nat) :
    (m.value k n).testBit b = (decide (b < 8 * n) && (m.byte (k + b / 8)).getLsbD (b % 8)) := by
  induction n with
  | zero => simp [Memory.value]
  | succ n ih =>
    rw [Memory.value, Nat.add_comm, Nat.mul_comm, Nat.testBit_two_pow_mul_add _ (m.value_lt k n)]
    by_cases hlow : b < 8 * n
    · rw [if_pos hlow, ih, decide_eq_true hlow, decide_eq_true (by omega : b < 8 * (n + 1))]
    rw [if_neg hlow, BitVec.testBit_toNat]
    by_cases hnew : b < 8 * (n + 1)
    · have hbyte : b / 8 = n := by omega
      have hbit : b - 8 * n = b % 8 := by omega
      rw [decide_eq_true hnew, Bool.true_and, hbyte, hbit]
    · rw [decide_eq_false hnew, Bool.false_and, BitVec.getLsbD_of_ge _ _ (by omega)]

/-- W has 64 bits. -/
theorem Memory.whole_lt (m : Memory) : m.whole < 2 ^ 64 := m.value_lt 0 Config.frameLen

/-- Frame bit `8k + i` is bit `i` of `FRAME[k]` (20_memory.md R32). -/
theorem Memory.bit_eq_getLsbD_byte (m : Memory) {k i : Nat} (hk : k < Config.frameLen) (hi : i < 8) :
    m.bit (8 * k + i) = (m.byte k).getLsbD i := by
  have hin : 8 * k + i < 8 * Config.frameLen := by omega
  have hbyte : (8 * k + i) / 8 = k := by omega
  have hbit : (8 * k + i) % 8 = i := by omega
  rw [Memory.bit, Memory.whole, Memory.testBit_value, decide_eq_true hin, Bool.true_and, hbyte, hbit,
    Nat.zero_add]

/-! ### The ports -/

/-- frame_q is W: its 64 bits lose nothing. -/
@[simp] theorem State.outputs_frameQ_toNat (s : State) : s.outputs.frameQ.toNat = s.frame.whole := by
  rw [State.outputs, BitVec.toNat_ofNat, Nat.mod_eq_of_lt s.frame.whole_lt]

@[simp] theorem State.outputs_frameQ_getLsbD (s : State) (b : Nat) :
    s.outputs.frameQ.getLsbD b = s.frame.bit b := by
  rw [← BitVec.testBit_toNat, State.outputs_frameQ_toNat, Memory.bit]

theorem State.outputs_frameQ_byte (s : State) {k : Nat} (hk : k < Config.frameLen) :
    s.outputs.frameQ.extractLsb' (8 * k) 8 = s.frame.byte k := by
  apply BitVec.eq_of_getLsbD_eq
  intro i hi
  rw [BitVec.getLsbD_extractLsb', decide_eq_true hi, Bool.true_and, State.outputs_frameQ_getLsbD,
    Memory.bit_eq_getLsbD_byte _ hk hi]

@[simp] theorem State.outputs_frameId (s : State) : s.outputs.frameId = Config.arbId := rfl

@[simp] theorem State.outputs_faultCode (s : State) : s.outputs.faultCode = s.fcode := rfl

@[simp] theorem State.outputs_fault (s : State) : s.outputs.fault = faultBit s.fault := rfl

/-- The port `fault` is 1 exactly in the faulted state (10_state.md R14). -/
theorem faultBit_eq_one_iff (fault : Bool) : faultBit fault = 1 ↔ fault = true := by
  cases fault <;> decide

/-- Settles O47: frame_q is W because W has 64 bits, and its bits and bytes are then those of the
little-endian read. -/
theorem outputPortsShowTheState : Obligations.OutputPortsShowTheState := by
  intro s
  exact ⟨fun k hk => s.outputs_frameQ_byte hk, fun b _ => s.outputs_frameQ_getLsbD b,
    s.outputs_frameQ_toNat, s.outputs_frameId, s.outputs_fault ▸ faultBit_eq_one_iff s.fault,
    s.outputs_faultCode⟩

end Sys2Proof.Machine
end

section
/-! The bits of the frame buffer (20_memory.md R32): O46. -/

namespace Sys2Proof.Machine

/-- Settles O46: `b` is bit `b % 8` of byte `b / 8` by the division with remainder, and that bit of W is
the byte's own (`Memory.bit_eq_getLsbD_byte`). -/
theorem frameBitIsABitOfItsByte : Obligations.FrameBitIsABitOfItsByte := by
  intro m b hb
  have hbyte : b / 8 < Config.frameLen := Nat.div_lt_of_lt_mul hb
  have hbit : b % 8 < 8 := Nat.mod_lt b (by decide)
  calc m.bit b = m.bit (8 * (b / 8) + b % 8) := by rw [Nat.div_add_mod]
    _ = (m.byte (b / 8)).getLsbD (b % 8) := m.bit_eq_getLsbD_byte hbyte hbit

end Sys2Proof.Machine
end

section
/-! The cases of `decode` (30_encoding.md R58) and the rows a word matches (R52, R55): O3, and
what O23 needs of the decoder. -/

namespace Sys2Proof

/-! ### The cases of the decoder -/

/-- The opcode cases of `decode` as one chain, in the order of 30_encoding.md R58. -/
theorem decode_eq_ite (w : CommandWord) :
    decode w =
      if opField w = 0x1#4 then decodeBare w .reset
      else if opField w = 0x2#4 then decodeArg w .seten
      else if opField w = 0x3#4 then decodeArg w .setcmd
      else if opField w = 0x4#4 then decodeBare w .render
      else if opField w = 0x5#4 then decodeBare w .getper
      else if opField w = 0x6#4 then decodeBare w .getid
      else if opField w = 0x7#4 then .ok (.encu (fldField w) (argField w))
      else if opField w = 0x8#4 then .ok (.encp (fldField w) (argField w))
      else .error (.reservedOpcode (opField w)) := by
  unfold decode
  simp only [BitVec.toNat_eq]
  split <;> simp_all

/-- The must-be-zero field of a command without operands, CW[35:0], is `fld` and `arg` together
(30_encoding.md R50, R54). -/
theorem low36_eq_zero_iff (w : CommandWord) :
    w.extractLsb' 0 36 = 0#36 ↔ fldField w = 0 ∧ argField w = 0 := by
  simp only [fldField, argField, BitVec.toNat_eq, BitVec.extractLsb'_toNat,
    BitVec.ofNat_eq_ofNat, BitVec.toNat_ofNat, Nat.shiftRight_eq_div_pow]
  omega

theorem decodeBare_toOption (w : CommandWord) (i : Instr) :
    (decodeBare w i).toOption = if w.extractLsb' 0 36 = 0#36 then some i else none := by
  simp only [decodeBare, low36_eq_zero_iff, apply_ite Except.toOption]
  rfl

theorem decodeArg_toOption (w : CommandWord) (i : Operand → Instr) :
    (decodeArg w i).toOption = if fldField w = 0#4 then some (i (argField w)) else none := by
  simp only [decodeArg, apply_ite Except.toOption]
  rfl

/-- Settles O3: the chain of `decode_eq_ite`, with CW[35:0] in place of `fld` and `arg`. -/
theorem decodeFollowsTheOpcodeCases : Obligations.DecodeFollowsTheOpcodeCases := by
  intro w
  simp only [decode_eq_ite, apply_ite Except.toOption, decodeBare_toOption, decodeArg_toOption]
  rfl

/-! ### The rows of the opcode map -/

/-- A word is the `op ‖ fld ‖ arg` of its own parts (30_encoding.md R51). -/
theorem assembleWord_fields (w : CommandWord) :
    assembleWord (opField w) (fldField w) (argField w) = w :=
  Machine.word_portsOfWord w

theorem decodeBare_rejects_iff (w : CommandWord) (i : Instr) :
    (∃ e, decodeBare w i = .error e) ↔ ¬ (fldField w = 0 ∧ argField w = 0) := by
  unfold decodeBare
  split <;> simp_all

theorem decodeArg_rejects_iff (w : CommandWord) (i : Operand → Instr) :
    (∃ e, decodeArg w i = .error e) ↔ fldField w ≠ 0 := by
  unfold decodeArg
  split <;> simp_all

/-- The decoder rejects the words that match no row, and only those (30_encoding.md R52, R55). -/
theorem matchesNoRow_iff_decode_rejects (w : CommandWord) :
    (∀ r ∈ opcodeTable, w &&& r.mask ≠ r.matchBits) ↔ ∃ e, decode w = .error e := by
  have hrows := Laws.selects_rows (opField w) (fldField w) (argField w)
  rw [assembleWord_fields] at hrows
  have hselects : (∀ r ∈ opcodeTable, w &&& r.mask ≠ r.matchBits)
      ↔ ∀ b ∈ opcodeTable.map (fun r => r.selects w), b = false := by
    simp [OpcodeRow.selects]
  rw [hselects, hrows, decode_eq_ite]
  simp only [List.forall_mem_cons, decide_eq_false_iff_not]
  split_ifs <;> simp [*, decodeBare_rejects_iff, decodeArg_rejects_iff]

/-- A reserved opcode is rejected whatever the other bits (30_encoding.md R55). -/
theorem decode_reservedOpcode {w : CommandWord} (h : opField w = 0x0#4 ∨ 0x9#4 ≤ opField w) :
    decode w = .error (.reservedOpcode (opField w)) := by
  have hne {op : BitVec 4} (hop : 0x1#4 ≤ op ∧ op ≤ 0x8#4) : opField w ≠ op := by bv_omega
  simp [decode_eq_ite, hne]

end Sys2Proof
end

section
/-! The step of a presented command word, and what a word without a row does (30_encoding.md R55): O23. -/

namespace Sys2Proof.Machine

/-- The step of a presented command word accepts that word. -/
theorem step_of_command {s : State} {c : CommandPorts} {rest : List PortEvent}
    (hp : s.pending = .command c :: rest) : step s = acceptWord c.word (s.setPending rest) := by
  rw [step, serve, hp]
  rfl

/-- A word the decoder rejects raises IllegalCommand (60_exceptions.md R122). -/
theorem acceptWord_of_decode_rejects {w : CommandWord} {e : DecodeReject}
    (he : decode w = .error e) (s : State) : acceptWord w s = raiseIllegal s := by
  rw [acceptWord, he]

/-- Settles O23: in both parts the rows are traded for the decoder by `matchesNoRow_iff_decode_rejects`;
a rejected word raises IllegalCommand, whose entry is the whole step, and a reserved opcode is
rejected. -/
theorem unmatchedWordRaisesIllegalCommand : Obligations.UnmatchedWordRaisesIllegalCommand := by
  refine ⟨fun s c rest hp hf hrows => ?_, fun w hop => ?_⟩
  · obtain ⟨e, he⟩ := (matchesNoRow_iff_decode_rejects c.word).1 hrows
    have hf' : (s.setPending rest).fault = false := hf
    calc step s = acceptWord c.word (s.setPending rest) := step_of_command hp
      _ = raiseIllegal (s.setPending rest) := acceptWord_of_decode_rejects he _
      _ = .next ((s.setPending rest).takeFault .illegalCommand) := State.command_raises hf' _
  · exact (matchesNoRow_iff_decode_rejects w).2 ⟨_, decode_reservedOpcode hop⟩

end Sys2Proof.Machine
end

section
/-! The one response of every accepted command (30_encoding.md R59): O13. A command is one
`State.command` whose effect completes with the table's data or raises a fault of the block; the model's
own stop is ruled out from ENC upwards. -/

namespace Sys2Proof.Machine

/-! ### No command reaches the model's own stop (log entry 8) -/

/-- An operation that completes or raises a fault of the block. -/
def NeverStops {α : Type} (r : Except Raise α) : Prop := ∀ a, r ≠ .error (.outside a)

@[simp] theorem neverStops_ok {α : Type} (x : α) : NeverStops (.ok x : Except Raise α) := nofun

@[simp] theorem neverStops_code {α : Type} (c : FaultCode) :
    NeverStops (.error (.code c) : Except Raise α) := nofun

theorem NeverStops.cases {α : Type} {r : Except Raise α} (h : NeverStops r) :
    (∃ x, r = .ok x) ∨ ∃ c, r = .error (.code c) := by
  rcases r with (c | a) | x
  · exact .inr ⟨c, rfl⟩
  · exact absurd rfl (h a)
  · exact .inl ⟨x, rfl⟩

theorem fieldAt_neverStops (fld : FieldIndex) : NeverStops (fieldAt fld) := by
  rcases fieldAt_cases fld with ⟨_, h⟩ | ⟨_, h⟩ | ⟨_, h⟩ <;> simp [h]

theorem enumenc_neverStops (codes : List Nat) (t : Nat) : NeverStops (enumenc codes t) := by
  rcases enumenc_cases codes t with ⟨_, _, h⟩ | ⟨_, h⟩ <;> simp [h]

theorem rawOf_neverStops (f : FieldSpec) (p : Int) (t : Nat) : NeverStops (rawOf f p t) := by
  rcases rawOf_cases f p t with ⟨_, h⟩ | ⟨codes, _, _, h⟩
  · simp [h]
  · exact h ▸ enumenc_neverStops codes t

theorem enc_neverStops (f : FieldSpec) (raw : Nat) (m : Memory) : NeverStops (enc f raw m) := by
  rcases enc_cases f raw m with ⟨_, h⟩ | ⟨_, h⟩ <;> simp [h]

theorem encPhysical_neverStops (f : FieldSpec) (p : Int) (t : Nat) (m : Memory) :
    NeverStops (encPhysical f p t m) := by
  unfold encPhysical
  rcases (rawOf_neverStops f p t).cases with ⟨raw, h⟩ | ⟨c, h⟩ <;> rw [h]
  · exact enc_neverStops f raw m
  · exact neverStops_code c

theorem encFields_neverStops (l : List (FieldSpec × Nat)) (m : Memory) :
    NeverStops (encFields l m) := by
  induction l generalizing m with
  | nil => exact neverStops_ok m
  | cons fv l ih =>
    obtain ⟨f, v⟩ := fv
    rw [encFields]
    rcases (encPhysical_neverStops f v v m).cases with ⟨m', h⟩ | ⟨c, h⟩ <;> rw [h]
    · exact ih m'
    · exact neverStops_code c

theorem renderFrame_neverStops (s : State) : NeverStops (renderFrame s) := by
  rw [renderFrame, zeroFrame_eq]
  exact encFields_neverStops _ _

theorem encodeRaw_neverStops (fld : FieldIndex) (arg : Operand) (m : Memory) :
    NeverStops (encodeRaw fld arg m) := by
  unfold encodeRaw
  rcases (fieldAt_neverStops fld).cases with ⟨f, h⟩ | ⟨c, h⟩ <;> rw [h]
  · exact enc_neverStops f _ m
  · exact neverStops_code c

theorem encodePhysical_neverStops (fld : FieldIndex) (arg : Operand) (m : Memory) :
    NeverStops (encodePhysical fld arg m) := by
  unfold encodePhysical
  rcases (fieldAt_neverStops fld).cases with ⟨f, h⟩ | ⟨c, h⟩ <;> rw [h]
  · exact encPhysical_neverStops f _ _ m
  · exact neverStops_code c

/-! ### What the effect of a command is -/

/-- The response data of a command that completes (30_encoding.md R59). -/
def completionData : Instr → BitVec 32
  | .getper => Config.periodMs
  | .getid => Config.arbId
  | _ => 0

/-- An effect that raises a fault of the block, or completes with the response data `data` and leaves
the events, the responses and FAULT as they are. -/
def State.Answers (s : State) (data : BitVec 32) (effect : Except Raise (State × BitVec 32)) : Prop :=
  (∃ c, effect = .error (.code c)) ∨ ∃ s', effect = .ok (s', data)
    ∧ s'.pending = s.pending ∧ s'.responses = s.responses ∧ s'.fault = s.fault

theorem State.answers_raise (s : State) (data : BitVec 32) (c : FaultCode) :
    s.Answers data (.error (.code c)) := .inl ⟨c, rfl⟩

theorem State.answers_read (s : State) (data : BitVec 32) : s.Answers data (.ok (s, data)) :=
  .inr ⟨s, rfl, rfl, rfl, rfl⟩

theorem State.answers_setCmd (s : State) (v : BitVec 8) :
    s.Answers 0 (State.silently (.ok (s.setCmd v))) := .inr ⟨_, rfl, rfl, rfl, rfl⟩

theorem State.answers_setVariant (s : State) (arg : Operand) :
    s.Answers 0 (State.silently (setVariant arg s)) := by
  unfold setVariant
  split
  · exact s.answers_raise 0 .enumDomain
  · exact .inr ⟨_, rfl, rfl, rfl, rfl⟩

/-- A command that writes FRAME only answers when what it writes does not stop. -/
theorem State.answers_writeFrame (s : State) {r : Except Raise Memory} (h : NeverStops r) :
    s.Answers 0 (State.silently (s.writeFrame r)) := by
  rcases h.cases with ⟨m, rfl⟩ | ⟨c, rfl⟩
  · exact .inr ⟨s.setFrame m, rfl, rfl, rfl, rfl⟩
  · exact s.answers_raise 0 c

/-- Every command is one `State.command` with an effect that answers. -/
theorem exec_eq_command (i : Instr) (s : State) :
    ∃ effect, s.Answers (completionData i) effect ∧ exec i s = s.command effect := by
  cases i with
  | reset =>
    exact ⟨_, s.answers_writeFrame (zeroFrame_eq s.frame ▸ neverStops_ok _), rfl⟩
  | seten arg => exact ⟨_, s.answers_setVariant arg, rfl⟩
  | setcmd arg => exact ⟨_, s.answers_setCmd _, rfl⟩
  | render => exact ⟨_, s.answers_writeFrame (renderFrame_neverStops s), rfl⟩
  | getper => exact ⟨_, s.answers_read _, rfl⟩
  | getid => exact ⟨_, s.answers_read _, rfl⟩
  | encu fld arg => exact ⟨_, s.answers_writeFrame (encodeRaw_neverStops fld arg s.frame), rfl⟩
  | encp fld arg => exact ⟨_, s.answers_writeFrame (encodePhysical_neverStops fld arg s.frame), rfl⟩

/-! ### The response -/

/-- The response to a command from `s` to `t` by the table of 30_encoding.md R59, where `data` is the
data of the command's completion. -/
def tableResponse (s t : State) (data : BitVec 32) : Response :=
  if s.fault then ⟨true, codeData s.fcode⟩
  else if t.fault then ⟨true, codeData t.fcode⟩
  else ⟨false, data⟩

/-- A command whose effect answers gives one response, the table's. -/
theorem State.command_responds {s : State} {data : BitVec 32}
    {effect : Except Raise (State × BitVec 32)} (h : s.Answers data effect) :
    ∃ t, s.command effect = .next t ∧ t.pending = s.pending
      ∧ t.responses = s.responses ++ [tableResponse s t data] := by
  cases hf : s.fault with
  | true => exact ⟨_, State.command_faulted hf effect, rfl, by simp [tableResponse, hf]⟩
  | false =>
    rcases h with ⟨c, rfl⟩ | ⟨s', rfl, hpending, hresponses, hfault⟩
    · exact ⟨_, State.command_raises hf c, rfl, by simp [tableResponse, hf]⟩
    · exact ⟨_, State.command_ok hf s' data, hpending,
        by simp [tableResponse, hf, hresponses, hfault]⟩

/-- The response data of a word that completes; a word of no command never does, and has 0 here. -/
def wordData (w : CommandWord) : BitVec 32 :=
  if decode w = .ok .getper then Config.periodMs
  else if decode w = .ok .getid then Config.arbId
  else 0

theorem wordData_of_decode_ok {w : CommandWord} {i : Instr} (hi : decode w = .ok i) :
    wordData w = completionData i := by
  rw [wordData, hi]
  cases i <;> rfl

/-- Every accepted word, legal or not, gives one response, the table's. -/
theorem acceptWord_responds (w : CommandWord) (s : State) :
    ∃ t, acceptWord w s = .next t ∧ t.pending = s.pending
      ∧ t.responses = s.responses ++ [tableResponse s t (wordData w)] := by
  rcases acceptWord_cases w s with ⟨_, _, haccept⟩ | ⟨i, hi, haccept⟩
  · rw [haccept]
    exact State.command_responds (s.answers_raise _ .illegalCommand)
  · obtain ⟨effect, hanswers, hexec⟩ := exec_eq_command i s
    rw [haccept, hexec, wordData_of_decode_ok hi]
    exact State.command_responds hanswers

/-- Settles O13: the step accepts the presented word, and `tableResponse` is the table's chain. -/
theorem everyCommandGivesOneResponse : Obligations.EveryCommandGivesOneResponse := by
  intro s c rest hp
  obtain ⟨t, haccept, hpending, hresponses⟩ := acceptWord_responds c.word (s.setPending rest)
  refine ⟨t, _, (step_of_command hp).trans haccept, hpending, hresponses, ?_⟩
  simp only [tableResponse, wordData, State.setPending_fault, State.setPending_fcode]
  split_ifs <;> simp [*, codeData, Config.arbId]

end Sys2Proof.Machine
end

section
/-! ENC bit by bit and on the whole buffer (40_codec.md R74): O38. One fact about inserting bits by
mask and shift serves both the merged bytes and the whole buffer W. -/

namespace Sys2Proof.Machine

/-! ### Inserting a bit field into an integer -/

/-- The low `len` bits of `raw` in the place of the bits `off .. off + len - 1` of an `N`-bit `old`: the
shape of R74, on the spanned bytes and on W alike. -/
def insertBits (N off len raw old : Nat) : Nat :=
  (old &&& ((2 ^ N - 1) ^^^ ((2 ^ len - 1) <<< off))) ||| ((raw &&& (2 ^ len - 1)) <<< off)

theorem testBit_insertBits {N off len : Nat} (h : off + len ≤ N) (raw old b : Nat) :
    (insertBits N off len raw old).testBit b
      = if off ≤ b ∧ b < off + len then raw.testBit (b - off)
        else (decide (b < N) && old.testBit b) := by
  simp only [insertBits, Nat.testBit_or, Nat.testBit_and, Nat.testBit_xor, Nat.testBit_shiftLeft,
    Nat.testBit_two_pow_sub_one]
  by_cases hin : off ≤ b ∧ b < off + len
  · have hN : b < N := by omega
    have hlen : b - off < len := by omega
    simp [hin, hN, hlen]
  · have hout : (decide (b ≥ off) && decide (b - off < len)) = false := by
      simp only [Bool.and_eq_false_iff, decide_eq_false_iff_not]
      omega
    rw [if_neg hin, hout, Bool.xor_false, Bool.and_left_comm, hout, Bool.and_false, Bool.or_false,
      Bool.and_comm]

theorem mergeField_eq_insertBits (f : FieldSpec) (raw old : Nat) :
    mergeField f raw old = insertBits (8 * spanBytes f) (startBit f) f.bitLength raw old := rfl

/-! ### Frame bits of a read and of a write -/

/-- W has no bit from 64 up. -/
theorem Memory.bit_of_ge (m : Memory) {b : Nat} (h : 8 * Config.frameLen ≤ b) : m.bit b = false := by
  rw [Memory.bit, Memory.whole, Memory.testBit_value, decide_eq_false (by omega), Bool.false_and]

/-- A read from address `k` holds the frame bits from `8k` on. -/
theorem Memory.testBit_value_eq_bit (m : Memory) {k n b : Nat} (hlo : 8 * k ≤ b)
    (hhi : b < 8 * (k + n)) (hb : b < 8 * Config.frameLen) :
    (m.value k n).testBit (b - 8 * k) = m.bit b := by
  have hbyte : k + (b - 8 * k) / 8 = b / 8 := by omega
  have hbit : (b - 8 * k) % 8 = b % 8 := by omega
  rw [Memory.testBit_value, frameBitIsABitOfItsByte m b hb, decide_eq_true (by omega), Bool.true_and,
    hbyte, hbit]

/-- A write to the addresses from `k` on puts its value into the frame bits from `8k` on. -/
theorem Memory.bit_setValue (m : Memory) (k v n : Nat) {b : Nat} (hb : b < 8 * Config.frameLen) :
    (m.setValue k v n).bit b
      = if 8 * k ≤ b ∧ b < 8 * (k + n) then v.testBit (b - 8 * k) else m.bit b := by
  rw [frameBitIsABitOfItsByte _ b hb, Memory.byte_setValue]
  by_cases hin : 8 * k ≤ b ∧ b < 8 * (k + n)
  · have hplace : 8 * (b / 8 - k) + b % 8 = b - 8 * k := by omega
    rw [if_pos (by omega), if_pos hin, BitVec.getLsbD_ofNat, decide_eq_true (by omega), Bool.true_and,
      Nat.testBit_shiftRight, hplace]
  · rw [if_neg (by omega), if_neg hin, frameBitIsABitOfItsByte m b hb]

/-! ### ENC -/

/-- What ENC leaves (40_codec.md R74): the bits of `f` are the low bits of `raw`, and every other
frame bit and every byte outside the span is as before. -/
def FieldWritten (f : FieldSpec) (raw : Nat) (m m' : Memory) : Prop :=
  (∀ b, b < 8 * Config.frameLen →
    m'.bit b = if f.bitOffset ≤ b ∧ b < f.bitOffset + f.bitLength
      then raw.testBit (b - f.bitOffset) else m.bit b)
  ∧ ∀ k, k < firstByte f ∨ firstByte f + spanBytes f ≤ k → m'.byte k = m.byte k

/-- The field lies inside the bits of its span (20_memory.md R34). -/
theorem field_in_span (f : FieldSpec) :
    startBit f + f.bitLength ≤ 8 * spanBytes f ∧ 8 * firstByte f + startBit f = f.bitOffset := by
  simp only [spanBytes, firstByte, startBit]
  omega

theorem fieldWritten_setValue (f : FieldSpec) (raw : Nat) (m : Memory) :
    FieldWritten f raw m (m.setValue (firstByte f)
      (mergeField f raw (m.value (firstByte f) (spanBytes f))) (spanBytes f)) := by
  obtain ⟨hspan, hoff⟩ := field_in_span f
  refine ⟨fun b hb => ?_, fun k hk => by rw [Memory.byte_setValue, if_neg (by omega)]⟩
  rw [Memory.bit_setValue _ _ _ _ hb, mergeField_eq_insertBits, testBit_insertBits hspan]
  by_cases hin : 8 * firstByte f ≤ b ∧ b < 8 * (firstByte f + spanBytes f)
  · have hplace : b - 8 * firstByte f - startBit f = b - f.bitOffset := by omega
    have hfield : (startBit f ≤ b - 8 * firstByte f
        ∧ b - 8 * firstByte f < startBit f + f.bitLength)
        ↔ f.bitOffset ≤ b ∧ b < f.bitOffset + f.bitLength := by omega
    rw [if_pos hin, decide_eq_true (by omega), Bool.true_and,
      m.testBit_value_eq_bit hin.1 hin.2 hb, hplace]
    simp only [hfield]
  · rw [if_neg hin, if_neg (by omega)]

/-- ENC of a field that fits completes and writes exactly the field. -/
theorem enc_writes_field {f : FieldSpec} (raw : Nat) (m : Memory)
    (h : neededBytes f ≤ Config.frameLen) : ∃ m', enc f raw m = .ok m' ∧ FieldWritten f raw m m' := by
  rcases enc_cases f raw m with ⟨hlt, _⟩ | ⟨_, he⟩
  · omega
  · exact ⟨_, he, fieldWritten_setValue f raw m⟩

/-- ENC of a field that does not fit raises BufferSpan (40_codec.md R73). -/
theorem enc_bufferSpan {f : FieldSpec} (raw : Nat) (m : Memory)
    (h : Config.frameLen < neededBytes f) : enc f raw m = .error (.code .bufferSpan) := if_pos h

/-- Writing a field inserts its bits into W. -/
theorem FieldWritten.whole {f : FieldSpec} {raw : Nat} {m m' : Memory} (h : FieldWritten f raw m m')
    (hfit : f.bitOffset + f.bitLength ≤ 8 * Config.frameLen) :
    m'.whole = insertBits (8 * Config.frameLen) f.bitOffset f.bitLength raw m.whole := by
  apply Nat.eq_of_testBit_eq
  intro b
  rw [testBit_insertBits hfit]
  by_cases hb : b < 8 * Config.frameLen
  · rw [decide_eq_true hb, Bool.true_and]
    exact h.1 b hb
  · rw [decide_eq_false hb, Bool.false_and, if_neg (by omega)]
    exact m'.bit_of_ge (by omega)

/-- Settles O38: the field's bits and the rest are `FieldWritten`, and W follows bit by bit. -/
theorem encReplacesExactlyTheFieldBits : Obligations.EncReplacesExactlyTheFieldBits := by
  intro f raw m
  refine ⟨enc_bufferSpan raw m, fun hneed => ?_⟩
  obtain ⟨m', henc, hwritten⟩ := enc_writes_field raw m hneed
  have hfit : f.bitOffset + f.bitLength ≤ 8 * Config.frameLen := by omega
  have h64 : 8 * Config.frameLen = 64 := rfl
  obtain ⟨hbits, hbytes⟩ := hwritten
  refine ⟨m', henc, FieldWritten.whole ⟨hbits, hbytes⟩ hfit, fun i hi => ?_, fun b hb hout => ?_,
    hbytes⟩
  · rw [hbits _ (by omega), if_pos (by omega), Nat.add_sub_cancel_left]
  · rw [hbits b (by omega), if_neg (by omega)]

end Sys2Proof.Machine
end

section
/-! The raw value of a field: ENUMENC (40_codec.md R72), O44. -/

namespace Sys2Proof.Machine

theorem rawOf_numeric {f : FieldSpec} (h : f.kind = .numeric) (p : Int) (t : Nat) :
    rawOf f p t = .ok (p2r f p) := by
  rw [rawOf, h]

theorem rawOf_enum {f : FieldSpec} {codes : List Nat} {names : List String}
    (h : f.kind = .enum codes names) (p : Int) (t : Nat) : rawOf f p t = enumenc codes t := by
  rw [rawOf, h]

theorem enumenc_of_getElem? {codes : List Nat} {t c : Nat} (h : codes[t]? = some c) :
    enumenc codes t = .ok c := by
  rw [enumenc, h]

/-- A tag outside the closed variant set raises EnumDomain. -/
theorem enumenc_of_length_le {codes : List Nat} {t : Nat} (h : codes.length ≤ t) :
    enumenc codes t = .error (.code .enumDomain) := by
  rw [enumenc, List.getElem?_eq_none h]

/-- Every code of a well-formed enum field fits the field (10_state.md R22 (g)). -/
theorem code_lt_of_wellFormed {n : Nat} {f : FieldSpec} {codes : List Nat} {names : List String}
    (hk : f.kind = .enum codes names) (hwf : f.wellFormed n = true) {c : Nat} (hc : c ∈ codes) :
    c < 2 ^ f.bitLength := by
  have hcodes : f.codesOk = true := (Bool.and_eq_true_iff.1 hwf).2
  simp only [FieldSpec.codesOk, hk, Bool.and_eq_true, List.all_eq_true, decide_eq_true_eq] at hcodes
  exact hcodes.2 c hc

/-- The two variants of `FIELDS[0]`, and no third (10_state.md R20). -/
theorem enumenc_device (t : Nat) :
    enumenc [0, 1] t = if t = 0 then .ok 0 else if t = 1 then .ok 1
      else .error (.code .enumDomain) := by
  match t with
  | 0 => rfl
  | 1 => rfl
  | t + 2 => exact enumenc_of_length_le (by simp)

/-- Settles O44: an enum field's raw value is the lookup of its tag in the code list, at and below
whose length the two outcomes part. -/
theorem enumencMapsTagsToCodes : Obligations.EnumencMapsTagsToCodes := by
  refine ⟨fun f codes names p t hk => ⟨fun ht => ?_, fun ht => ⟨?_, fun hwf => ?_⟩⟩, fun p t => ?_⟩
  · rw [rawOf_enum hk, enumenc_of_length_le ht]
  · rw [rawOf_enum hk, enumenc_of_getElem? (List.getElem?_eq_getElem ht)]
  · exact code_lt_of_wellFormed hk hwf (List.getElem_mem ht)
  · rw [← enumenc_device]
    exact rawOf_enum rfl p t

end Sys2Proof.Machine
end

section
/-! P2R against the exact rational quotient (40_codec.md R70): O41. Rounding is decided on magnitudes:
there "half away from zero" is the floor of the magnitude plus one half. -/

namespace Sys2Proof.Machine

/-- The quotient that the model holds as numerator and denominator is the rational of R70. -/
theorem quotientNum_div_quotientDen (f : FieldSpec) (p : Int) :
    (quotientNum f p : ℚ) / quotientDen f = ((p : ℚ) - f.offset) / f.precision := by
  have hoff : (f.offset.den : ℚ) ≠ 0 := Nat.cast_ne_zero.2 f.offset.den_nz
  have hprec : (f.precision.den : ℚ) ≠ 0 := Nat.cast_ne_zero.2 f.precision.den_nz
  conv_rhs => rw [← Rat.num_div_den f.offset, ← Rat.num_div_den f.precision]
  simp only [quotientNum, quotientDen, Int.cast_mul, Int.cast_sub, Int.cast_natCast]
  rw [sub_div' hoff, div_div_div_eq]

theorem quotientDen_ne_zero {f : FieldSpec} (h : f.precision ≠ 0) : quotientDen f ≠ 0 :=
  mul_ne_zero (Int.natCast_ne_zero.2 f.offset.den_nz) (Rat.num_ne_zero.2 h)

/-- The magnitude that `roundQuotient` computes. -/
def roundMagnitude (n d : Int) : Nat := (2 * n.natAbs + d.natAbs) / (2 * d.natAbs)

theorem roundQuotient_eq (n d : Int) :
    roundQuotient n d = if n * d < 0 then -(roundMagnitude n d : Int) else roundMagnitude n d := rfl

/-- The magnitude is the floor of `|n / d| + 1/2`. -/
theorem roundMagnitude_bounds (n : Int) {d : Int} (hd : d ≠ 0) :
    (roundMagnitude n d : ℚ) ≤ |(n : ℚ) / d| + 1 / 2
      ∧ |(n : ℚ) / d| + 1 / 2 < (roundMagnitude n d : ℚ) + 1 := by
  have hd' : (d.natAbs : ℚ) ≠ 0 := Nat.cast_ne_zero.2 (Int.natAbs_ne_zero.2 hd)
  have habs : |(n : ℚ) / d| = (n.natAbs : ℚ) / d.natAbs := by
    rw [abs_div, Nat.cast_natAbs, Nat.cast_natAbs, Int.cast_abs, Int.cast_abs]
  have hq : |(n : ℚ) / d| + 1 / 2
      = ((2 * n.natAbs + d.natAbs : Nat) : ℚ) / ((2 * d.natAbs : Nat) : ℚ) := by
    rw [habs, Nat.cast_add, Nat.cast_mul, Nat.cast_mul, Nat.cast_ofNat]
    field_simp
  rw [hq, roundMagnitude, ← Nat.floor_div_eq_div (K := ℚ)]
  exact ⟨Nat.floor_le (by positivity), Nat.lt_floor_add_one _⟩

/-- A number with the sign of `x` whose magnitude `M` is the floor of `|x| + 1/2` is nearest to `x`,
a tie going away from zero. -/
theorem nearest_of_magnitude {x r M : ℚ} (hM : 0 ≤ M) (hr : r = if x < 0 then -M else M)
    (hle : M ≤ |x| + 1 / 2) (hlt : |x| + 1 / 2 < M + 1) :
    |x - r| ≤ 1 / 2 ∧ (|x - r| = 1 / 2 → |x| < |r|) := by
  have hrM : |r| = M := by
    rw [hr]
    split <;> simp [abs_of_nonneg hM]
  have hdist : |x - r| = |(|x| - M)| := by
    rw [hr]
    split
    · next hx => rw [abs_of_neg hx, ← abs_neg]; congr 1; ring
    · next hx => rw [abs_of_nonneg (not_lt.1 hx)]
  rw [hdist, hrM]
  refine ⟨abs_le.2 ⟨by linarith, by linarith⟩, fun htie => ?_⟩
  rcases abs_eq (by norm_num : (0 : ℚ) ≤ 1 / 2) |>.1 htie with h | h <;> linarith

/-- `round` of 00_scope.md R8 on an exact quotient. -/
theorem roundQuotient_nearest (n : Int) {d : Int} (hd : d ≠ 0) :
    |(n : ℚ) / d - roundQuotient n d| ≤ 1 / 2
      ∧ (|(n : ℚ) / d - roundQuotient n d| = 1 / 2
        → |(n : ℚ) / d| < |(roundQuotient n d : ℚ)|) := by
  obtain ⟨hle, hlt⟩ := roundMagnitude_bounds n hd
  have hsign : n * d < 0 ↔ (n : ℚ) / d < 0 := by
    rw [div_neg_iff, mul_neg_iff]
    norm_cast
  refine nearest_of_magnitude (Nat.cast_nonneg _) ?_ hle hlt
  rw [roundQuotient_eq, apply_ite (Int.cast : ℤ → ℚ), Int.cast_neg, Int.cast_natCast]
  simp only [hsign]

/-- P2R is the clamp to the field width, as an integer. -/
theorem coe_p2r (f : FieldSpec) (p : Int) :
    (p2r f p : Int)
      = clamp (roundQuotient (quotientNum f p) (quotientDen f)) 0 (2 ^ f.bitLength - 1) :=
  Int.toNat_of_nonneg (le_clamp (Int.sub_nonneg.2 (one_le_pow₀ (by decide))))

/-- The raw value fits the field (40_codec.md R70). -/
theorem p2r_lt (f : FieldSpec) (p : Int) : p2r f p < 2 ^ f.bitLength := by
  have hmax : (0 : Int) ≤ 2 ^ f.bitLength - 1 := Int.sub_nonneg.2 (one_le_pow₀ (by decide))
  have h : (p2r f p : Int) ≤ 2 ^ f.bitLength - 1 := coe_p2r f p ▸ clamp_le hmax
  exact_mod_cast Int.lt_of_le_sub_one h

/-- Settles O41: the model's quotient is the rational one, `roundQuotient` rounds it as R70 says, and
P2R is the clamp of that integer. -/
theorem p2rRoundsTheExactQuotient : Obligations.P2rRoundsTheExactQuotient := by
  intro f p hprec
  obtain ⟨hnear, htie⟩ := roundQuotient_nearest (quotientNum f p) (quotientDen_ne_zero hprec)
  rw [quotientNum_div_quotientDen] at hnear htie
  exact ⟨_, hnear, htie, coe_p2r f p, p2r_lt f p⟩

end Sys2Proof.Machine
end

section
/-! The codec's commands: ENCU (40_codec.md R75) and ENCP (R76), O20 and O21. Both look a field up,
find its raw value and write it by ENC. -/

namespace Sys2Proof.Machine

/-! ### A command that writes FRAME -/

/-- A command that writes FRAME completes with the response (0, 0) and changes nothing else. -/
theorem State.command_writeFrame_ok {s : State} (h : s.fault = false) (m : Memory) :
    s.command (State.silently (s.writeFrame (.ok m)))
      = .next { s with frame := m, responses := s.responses ++ [⟨false, 0⟩] } :=
  State.command_ok h (s.setFrame m) 0

/-- A command that raises a fault before it writes FRAME is that fault's entry (60_exceptions.md
R126). -/
theorem State.command_writeFrame_raises {s : State} (h : s.fault = false) (c : FaultCode) :
    s.command (State.silently (s.writeFrame (.error (.code c))))
      = .next { s with
          fault := true, fcode := c.code, responses := s.responses ++ [⟨true, codeData c.code⟩] } :=
  State.command_raises h c

/-! ### The field table -/

theorem fieldAt_of_getElem? {fld : FieldIndex} {f : FieldSpec}
    (h : Config.fields.entries[fld.toNat]? = some f) : fieldAt fld = .ok f := by
  rw [fieldAt, h]

theorem fieldAt_of_length_le {fld : FieldIndex} (h : Config.fields.entries.length ≤ fld.toNat) :
    fieldAt fld = .error (.code .fieldIndex) := by
  rw [fieldAt, List.getElem?_eq_none h]

/-- A well-formed field fits the buffer (10_state.md R22 (b)). -/
theorem neededBytes_le_of_wellFormed {n : Nat} {f : FieldSpec} (h : f.wellFormed n = true) :
    neededBytes f ≤ n := by
  simp only [FieldSpec.wellFormed, FieldSpec.spanOk, Bool.and_eq_true, decide_eq_true_eq] at h
  obtain ⟨⟨⟨⟨⟨⟨_, hspan⟩, _⟩, _⟩, _⟩, _⟩, _⟩ := h
  exact hspan

/-- Every field of the table fits the frame buffer: the table carries the proof. -/
theorem neededBytes_le_of_getElem? {i : Nat} {f : FieldSpec}
    (h : Config.fields.entries[i]? = some f) : neededBytes f ≤ Config.frameLen :=
  neededBytes_le_of_wellFormed (List.all_eq_true.1 Config.fields.wf f (List.mem_of_getElem? h))

/-- A command that writes a field of the table by ENC completes and writes exactly the field. -/
theorem State.command_enc {s : State} (hf : s.fault = false) {i : Nat} {f : FieldSpec}
    (hfield : Config.fields.entries[i]? = some f) (raw : Nat) :
    ∃ m : Memory,
      s.command (State.silently (s.writeFrame (enc f raw s.frame)))
        = .next { s with frame := m, responses := s.responses ++ [⟨false, 0⟩] }
      ∧ FieldWritten f raw s.frame m := by
  obtain ⟨m, henc, hwritten⟩ := enc_writes_field raw s.frame (neededBytes_le_of_getElem? hfield)
  exact ⟨m, henc ▸ State.command_writeFrame_ok hf m, hwritten⟩

/-! ### ENCU -/

theorem exec_encu (fld : FieldIndex) (arg : Operand) (s : State) :
    exec (.encu fld arg) s = s.command (State.silently (s.writeFrame (encodeRaw fld arg s.frame))) :=
  rfl

theorem encodeRaw_of_field {fld : FieldIndex} {f : FieldSpec} (h : fieldAt fld = .ok f)
    (arg : Operand) (m : Memory) : encodeRaw fld arg m = enc f arg.toNat m := by
  rw [encodeRaw, h]
  rfl

theorem encodeRaw_of_error {fld : FieldIndex} {e : Raise} (h : fieldAt fld = .error e)
    (arg : Operand) (m : Memory) : encodeRaw fld arg m = .error e := by
  rw [encodeRaw, h]

/-- Settles O20: a field of the table takes ENC of the operand, an index beyond it raises FieldIndex
before anything is written. -/
theorem encuWritesTheRawBitsOfItsField : Obligations.EncuWritesTheRawBitsOfItsField := by
  intro fld arg s hf
  refine ⟨fun f hfield => ?_, fun hbeyond => ?_⟩
  · rw [exec_encu, encodeRaw_of_field (fieldAt_of_getElem? hfield)]
    exact State.command_enc hf hfield arg.toNat
  · rw [exec_encu, encodeRaw_of_error (fieldAt_of_length_le hbeyond)]
    exact State.command_writeFrame_raises hf .fieldIndex

/-! ### ENCP -/

theorem exec_encp (fld : FieldIndex) (arg : Operand) (s : State) :
    exec (.encp fld arg) s
      = s.command (State.silently (s.writeFrame (encodePhysical fld arg s.frame))) := rfl

theorem encodePhysical_of_error {fld : FieldIndex} {e : Raise} (h : fieldAt fld = .error e)
    (arg : Operand) (m : Memory) : encodePhysical fld arg m = .error e := by
  rw [encodePhysical, h]

/-- ENCP reads its operand signed for a numeric field and as a tag for an enum field. -/
theorem encodePhysical_of_field {fld : FieldIndex} {f : FieldSpec} (h : fieldAt fld = .ok f)
    (arg : Operand) (m : Memory) :
    encodePhysical fld arg m = encPhysical f arg.toInt arg.toNat m := by
  rw [encodePhysical, h, ← sext32_eq_toInt]
  rfl

theorem encPhysical_of_rawOf_ok {f : FieldSpec} {p : Int} {t raw : Nat} (h : rawOf f p t = .ok raw)
    (m : Memory) : encPhysical f p t m = enc f raw m := by
  rw [encPhysical, h]

theorem encPhysical_of_rawOf_error {f : FieldSpec} {p : Int} {t : Nat} {e : Raise}
    (h : rawOf f p t = .error e) (m : Memory) : encPhysical f p t m = .error e := by
  rw [encPhysical, h]

/-- Settles O21: the raw value is P2R or the code by the field's kind and is written by ENC; a tag
outside the codes, and an index beyond the table, raise their fault before anything is written. -/
theorem encpWritesTheEncodedValueOfItsField : Obligations.EncpWritesTheEncodedValueOfItsField := by
  intro fld arg s hf
  refine ⟨fun f raw hfield hkind => ?_, fun f codes names hfield hk htag => ?_, fun hbeyond => ?_⟩
  · have hraw : rawOf f arg.toInt arg.toNat = .ok raw := by
      rcases hkind with ⟨hk, rfl⟩ | ⟨codes, names, hk, hcode⟩
      · exact rawOf_numeric hk _ _
      · rw [rawOf_enum hk, enumenc_of_getElem? hcode]
    rw [exec_encp, encodePhysical_of_field (fieldAt_of_getElem? hfield),
      encPhysical_of_rawOf_ok hraw]
    exact State.command_enc hf hfield raw
  · have hraw : rawOf f arg.toInt arg.toNat = .error (.code .enumDomain) := by
      rw [rawOf_enum hk, enumenc_of_length_le htag]
    rw [exec_encp, encodePhysical_of_field (fieldAt_of_getElem? hfield),
      encPhysical_of_rawOf_error hraw]
    exact State.command_writeFrame_raises hf .enumDomain
  · rw [exec_encp, encodePhysical_of_error (fieldAt_of_length_le hbeyond)]
    exact State.command_writeFrame_raises hf .fieldIndex

end Sys2Proof.Machine
end

section
/-! The setters and RESET (41_frame_record.md R91, R93, R94): O14, O15 and O16. Each completes by its one
write, and SETEN has the one fault. -/

namespace Sys2Proof.Machine

/-- A command without read data that completes responds (0, 0). -/
theorem State.command_silently_ok {s : State} (h : s.fault = false) (s' : State) :
    s.command (State.silently (.ok s')) = .next (s'.respond false 0) :=
  State.command_ok h s' 0

/-! ### RESET -/

theorem exec_reset (s : State) :
    exec .reset s = s.command (State.silently (s.writeFrame (zeroFrame s.frame))) := rfl

/-- The reset operation's buffer, byte by byte (41_frame_record.md R91). -/
theorem byte_of_zeroFrame {m z : Memory} (h : zeroFrame m = .ok z) (k : Nat) :
    z.byte k = if k < Config.frameLen then 0 else m.byte k := by
  rw [zeroFrame_eq] at h
  cases h
  simp [Memory.byte_setValue]

/-- W is 0 where every byte of the buffer is. -/
theorem Memory.whole_eq_zero {m : Memory} (h : ∀ k, k < Config.frameLen → m.byte k = 0) :
    m.whole = 0 := by
  have hempty : m.whole = Memory.whole [] :=
    Memory.value_congr fun k _ hk => h k (by rwa [Nat.zero_add] at hk)
  exact hempty.trans rfl

/-- Settles O14: RESET writes the reset operation's buffer, whose eight bytes, and so W, are 0. -/
theorem resetCommandZeroFillsTheFrame : Obligations.ResetCommandZeroFillsTheFrame := by
  intro s hf
  obtain ⟨z, hz⟩ : ∃ z, zeroFrame s.frame = .ok z := ⟨_, zeroFrame_eq s.frame⟩
  have hexec : exec .reset s
      = .next { s with frame := z, responses := s.responses ++ [⟨false, 0⟩] } := by
    rw [exec_reset, hz]
    exact State.command_writeFrame_ok hf z
  have hzero : ∀ k, k < Config.frameLen → z.byte k = 0 := fun k hk => by
    rw [byte_of_zeroFrame hz, if_pos hk]
  refine ⟨z, hexec, hzero, fun t ht => ?_, fun k hk => ?_⟩
  · rw [hexec] at ht
    cases ht
    exact BitVec.eq_of_toNat_eq ((State.outputs_frameQ_toNat _).trans (Memory.whole_eq_zero hzero))
  · rw [byte_of_zeroFrame hz, if_neg (Nat.not_lt.2 hk)]

/-! ### SETEN -/

theorem exec_seten (arg : Operand) (s : State) :
    exec (.seten arg) s = s.command (State.silently (setVariant arg s)) := rfl

theorem setVariant_of_lt {arg : Operand} (h : arg.toNat < 2) (s : State) :
    setVariant arg s = .ok (s.setEn (arg.extractLsb' 0 1)) := if_neg (Nat.not_le.2 h)

theorem setVariant_of_le {arg : Operand} (h : 2 ≤ arg.toNat) (s : State) :
    setVariant arg s = .error (.code .enumDomain) := if_pos h

/-- The one bit that SETEN stores is the whole of a tag of the set. -/
theorem toNat_tagBit {arg : Operand} (h : arg.toNat < 2) : (arg.extractLsb' 0 1).toNat = arg.toNat := by
  rw [BitVec.extractLsb'_toNat, Nat.shiftRight_zero]
  exact Nat.mod_eq_of_lt h

/-- Settles O15: the two outcomes of `setVariant` part at tag 2. -/
theorem setenStoresTheVariantTag : Obligations.SetenStoresTheVariantTag := by
  intro arg s hf
  refine ⟨fun htag => ⟨_, toNat_tagBit htag, ?_⟩, fun htag => ?_⟩
  · rw [exec_seten, setVariant_of_lt htag]
    exact State.command_silently_ok hf _
  · rw [exec_seten, setVariant_of_le htag]
    exact State.command_raises hf .enumDomain

/-! ### SETCMD -/

theorem exec_setcmd (arg : Operand) (s : State) :
    exec (.setcmd arg) s
      = s.command (State.silently (.ok (s.setCmd (BitVec.ofInt 8 (saturated arg))))) := rfl

/-- SETCMD compares the signed operand at its full width (41_frame_record.md R94). -/
theorem saturated_eq_clamp (arg : Operand) : saturated arg = clamp arg.toInt 0 100 := by
  rw [← sext32_eq_toInt]
  rfl

/-- A byte holds every value from 0 to 255. -/
theorem toNat_ofInt_byte {v : Int} (h0 : 0 ≤ v) (h255 : v < 2 ^ 8) :
    ((BitVec.ofInt 8 v).toNat : Int) = v := by
  rw [BitVec.toNat_ofInt]
  omega

/-- Settles O16: the saturated value is at most 100, so narrowing it to the 8 bits of CMD loses
nothing. -/
theorem setcmdStoresTheSaturatedPercentage : Obligations.SetcmdStoresTheSaturatedPercentage := by
  intro arg s hf
  refine ⟨BitVec.ofInt 8 (saturated arg), ?_, ?_⟩
  · rw [exec_setcmd]
    exact State.command_silently_ok hf _
  · have hlo : 0 ≤ clamp arg.toInt 0 100 := le_clamp (by decide)
    have hhi : clamp arg.toInt 0 100 ≤ 100 := clamp_le (by decide)
    rw [saturated_eq_clamp, toNat_ofInt_byte hlo (by omega)]
    rfl

end Sys2Proof.Machine
end

section
/-! RENDER (41_frame_record.md R96): O17. Both fields of the table are whole bytes, and both logical
values are their own raw values, so the marshalled buffer is known byte by byte. -/

namespace Sys2Proof.Machine

/-! ### A field that is one whole byte -/

/-- Writing a field that fills byte `k` replaces that byte and no other. -/
theorem FieldWritten.byte_of_aligned {f : FieldSpec} {raw k : Nat} {m m' : Memory}
    (h : FieldWritten f raw m m') (hoff : f.bitOffset = 8 * k) (hlen : f.bitLength = 8)
    (hk : k < Config.frameLen) (j : Nat) :
    m'.byte j = if j = k then BitVec.ofNat 8 raw else m.byte j := by
  obtain ⟨hbits, hbytes⟩ := h
  split
  case isTrue hj =>
    subst hj
    apply BitVec.eq_of_getLsbD_eq
    intro i hi
    have hplace : 8 * j + i - f.bitOffset = i := by omega
    rw [← m'.bit_eq_getLsbD_byte hk hi, hbits _ (by omega), if_pos (by omega), hplace,
      BitVec.getLsbD_ofNat, decide_eq_true hi, Bool.true_and]
  case isFalse hj =>
    have hspan : firstByte f = k ∧ spanBytes f = 1 := by
      simp only [firstByte, spanBytes, startBit]
      omega
    exact hbytes j (by omega)

/-! ### The raw values of the logical state -/

/-- A variant of `FIELDS[0]` is its own code (10_state.md R20). -/
theorem rawOf_brakePedalEnCtrl {t : Nat} (h : t < 2) (p : Int) :
    rawOf Config.brakePedalEnCtrl p t = .ok t := by
  have hcode : [0, 1][t]? = some t := by
    match t with
    | 0 => rfl
    | 1 => rfl
  exact (rawOf_enum rfl p t).trans (enumenc_of_getElem? hcode)

theorem roundQuotient_one (n : Int) : roundQuotient n 1 = n := by
  have hmag : roundMagnitude n 1 = n.natAbs := by
    rw [roundMagnitude, Int.natAbs_one]
    omega
  rw [roundQuotient_eq, hmag]
  split <;> omega

/-- With precision 1 and offset 0 only the clamp to the field width is left of P2R (40_codec.md
R70). -/
theorem coe_p2r_brakePedalCmd (p : Int) : (p2r Config.brakePedalCmd p : Int) = clamp p 0 255 := by
  have hnum : quotientNum Config.brakePedalCmd p = p := by
    simp [quotientNum, Config.brakePedalCmd]
  have hden : quotientDen Config.brakePedalCmd = 1 := rfl
  rw [coe_p2r, hnum, hden, roundQuotient_one]
  rfl

/-- Every value CMD can hold is its own raw value. -/
theorem p2r_brakePedalCmd_cmd (v : BitVec 8) : p2r Config.brakePedalCmd v.toNat = v.toNat := by
  have hfits : (v.toNat : Int) ≤ 255 := by omega
  exact_mod_cast (coe_p2r_brakePedalCmd v.toNat).trans (clamp_of_mem (Int.natCast_nonneg _) hfits)

/-! ### The marshalled buffer -/

theorem exec_render (s : State) :
    exec .render s = s.command (State.silently (s.writeFrame (renderFrame s))) := rfl

/-- RENDER's loop writes its first field and goes on. -/
theorem encFields_cons {f : FieldSpec} {v raw : Nat} {m m' : Memory} (hraw : rawOf f v v = .ok raw)
    (henc : enc f raw m = .ok m') (rest : List (FieldSpec × Nat)) :
    encFields ((f, v) :: rest) m = encFields rest m' := by
  rw [encFields, encPhysical_of_rawOf_ok hraw, henc]

/-- The marshalled buffer is the zeroed one with the two fields of the table written in turn
(41_frame_record.md R96). -/
theorem renderFrame_writes_both_fields (s : State) :
    ∃ z e m : Memory,
      zeroFrame s.frame = .ok z
      ∧ (enc Config.brakePedalEnCtrl s.en.toNat z = .ok e
        ∧ FieldWritten Config.brakePedalEnCtrl s.en.toNat z e)
      ∧ (enc Config.brakePedalCmd s.cmd.toNat e = .ok m
        ∧ FieldWritten Config.brakePedalCmd s.cmd.toNat e m)
      ∧ renderFrame s = .ok m := by
  obtain ⟨z, hz⟩ : ∃ z, zeroFrame s.frame = .ok z := ⟨_, zeroFrame_eq s.frame⟩
  obtain ⟨e, hen⟩ := enc_writes_field (f := Config.brakePedalEnCtrl) s.en.toNat z (by decide)
  obtain ⟨m, hcmd⟩ := enc_writes_field (f := Config.brakePedalCmd) s.cmd.toNat e (by decide)
  have hrawCmd : rawOf Config.brakePedalCmd s.cmd.toNat s.cmd.toNat = .ok s.cmd.toNat := by
    rw [rawOf_numeric rfl, p2r_brakePedalCmd_cmd]
  refine ⟨z, e, m, hz, hen, hcmd, ?_⟩
  calc renderFrame s
      = encFields [(Config.brakePedalEnCtrl, s.en.toNat), (Config.brakePedalCmd, s.cmd.toNat)] z := by
        rw [renderFrame, hz]
        rfl
    _ = encFields [(Config.brakePedalCmd, s.cmd.toNat)] e :=
        encFields_cons (rawOf_brakePedalEnCtrl s.en.isLt _) hen.1 _
    _ = .ok m := encFields_cons hrawCmd hcmd.1 []

/-- The marshalled buffer, byte by byte. -/
theorem byte_of_renderFrame {s : State} {m : Memory} (h : renderFrame s = .ok m) (k : Nat) :
    m.byte k = if k = 1 then s.cmd else if k = 0 then s.en.setWidth 8
      else if k < Config.frameLen then 0 else s.frame.byte k := by
  obtain ⟨z, e, m', hz, ⟨_, hen⟩, ⟨_, hcmd⟩, hrender⟩ := renderFrame_writes_both_fields s
  obtain rfl : m' = m := Except.ok.inj (hrender.symm.trans h)
  rw [hcmd.byte_of_aligned (k := 1) rfl rfl (by decide),
    hen.byte_of_aligned (k := 0) rfl rfl (by decide), byte_of_zeroFrame hz, BitVec.ofNat_toNat,
    BitVec.ofNat_toNat, BitVec.setWidth_eq]

/-- Settles O17: R96's sequence is the buffer's own (`renderFrame_writes_both_fields`), and its bytes
are read off `byte_of_renderFrame`. -/
theorem renderMarshalsTheLogicalState : Obligations.RenderMarshalsTheLogicalState := by
  intro s hf
  obtain ⟨z, e, m, hz, ⟨hen, _⟩, ⟨hcmd, _⟩, hrender⟩ := renderFrame_writes_both_fields s
  have hbyte := byte_of_renderFrame hrender
  refine ⟨z, e, m, s.en.toNat, ?_, hz, rawOf_brakePedalEnCtrl s.en.isLt 0, hen, ?_, hbyte 0, hbyte 1,
    fun k hk hlt => ?_, fun k hk => ?_⟩
  · rw [exec_render, hrender]
    exact State.command_writeFrame_ok hf m
  · rwa [p2r_brakePedalCmd_cmd]
  · rw [hbyte, if_neg (by omega), if_neg (by omega), if_pos hlt]
  · have h8 : 8 ≤ k := hk
    rw [hbyte, if_neg (by omega), if_neg (by omega), if_neg (Nat.not_lt.2 hk)]

end Sys2Proof.Machine
end

section
/-! The transmission descriptor (42_descriptor.md R110, R111): O18 and O19. Both commands read a
constant of the device, so the state a completion leaves is the one it found, with one more response. -/

namespace Sys2Proof.Machine

/-- A command that only reads completes with its data and changes nothing else. -/
theorem State.command_read_ok {s : State} (h : s.fault = false) (data : BitVec 32) :
    s.command (.ok (s, data)) = .next { s with responses := s.responses ++ [⟨false, data⟩] } :=
  State.command_ok h s data

theorem exec_getper (s : State) : exec .getper s = s.command (.ok (s, Config.periodMs)) := rfl

theorem exec_getid (s : State) : exec .getid s = s.command (.ok (s, Config.arbId)) := rfl

/-- Settles O18: GETPER is the read of PERIOD_MS, whatever number that is. -/
theorem getperReportsThePeriod : Obligations.GetperReportsThePeriod := by
  intro s hf
  rw [exec_getper]
  exact State.command_read_ok hf Config.periodMs

/-- Settles O19: GETID is the read of ARB_ID, which is 0x111 by definition. -/
theorem getidReportsTheIdentifier : Obligations.GetidReportsTheIdentifier := by
  intro s hf
  rw [exec_getid]
  exact State.command_read_ok hf Config.arbId

end Sys2Proof.Machine
end

section
/-! Refusal and precise fault entry (60_exceptions.md R126 to R129): O24, O26, O9 and O25. A command from
FAULT = 0 has two ends, which `exec_completesOrFaults` gives once for all commands: it completes and keeps
the status, or it is the entry of a fault that its operands raise. -/

namespace Sys2Proof.Machine

/-! ### The refusal of a faulted block -/

theorem exec_faulted {s : State} (h : s.fault = true) (i : Instr) : exec i s = .next s.refuse := by
  obtain ⟨effect, _, hexec⟩ := exec_eq_command i s
  rw [hexec, State.command_faulted h]

/-- The refusal does not look at the word (60_exceptions.md R127). -/
theorem acceptWord_faulted {s : State} (h : s.fault = true) (w : CommandWord) :
    acceptWord w s = .next s.refuse := by
  rcases acceptWord_cases w s with ⟨_, _, haccept⟩ | ⟨i, _, haccept⟩ <;> rw [haccept]
  · exact State.command_faulted h _
  · exact exec_faulted h i

theorem step_of_command_faulted {s : State} {c : CommandPorts} {rest : List PortEvent}
    (h : s.fault = true) (hp : s.pending = .command c :: rest) :
    step s = .next (s.setPending rest).refuse :=
  (step_of_command hp).trans (acceptWord_faulted (s := s.setPending rest) h c.word)

/-- Settles O24: every command is one `State.command`, and so is the illegal word; the refusal comes
before its effect. -/
theorem faultedBlockRefusesEveryCommand : Obligations.FaultedBlockRefusesEveryCommand := by
  intro s hf
  exact ⟨exec_faulted hf, fun _ _ hp => step_of_command_faulted hf hp⟩

/-- Settles O26: waiting and the refusal of a command word keep FAULT and FCODE, so the event of any
other step is a hardware reset. -/
theorem onlyHardwareResetLeavesTheFault : Obligations.OnlyHardwareResetLeavesTheFault := by
  intro s t hf ht
  rcases step_cases s with ⟨_, hstep⟩ | ⟨c, rest, hp, _⟩ | ⟨presented, rest, hp, hstep⟩
  · rw [hstep] at ht
    cases ht
    exact .inl ⟨hf, rfl⟩
  · rw [step_of_command_faulted hf hp] at ht
    cases ht
    exact .inl ⟨hf, rfl⟩
  · rw [hstep] at ht
    cases ht
    exact .inr ⟨⟨presented, rest, hp⟩, rfl, rfl, rfl, rfl, rfl⟩

/-! ### What a buffer operation of the configured block raises -/

/-- The faults that a command's operands raise: EnumDomain and FieldIndex (60_exceptions.md R123,
R124). -/
def FaultCode.IsOperandFault (c : FaultCode) : Prop := c = .enumDomain ∨ c = .fieldIndex

/-- An operation that completes or raises a fault of the operands. -/
def RaisesOperandFaultsOnly {α : Type} (r : Except Raise α) : Prop :=
  (∃ x, r = .ok x) ∨ ∃ c : FaultCode, c.IsOperandFault ∧ r = .error (.code c)

/-- The lookup of a field finds an entry of the table or raises FieldIndex. -/
theorem fieldAt_entry_or_fieldIndex (fld : FieldIndex) :
    (∃ f, Config.fields.entries[fld.toNat]? = some f ∧ fieldAt fld = .ok f)
      ∨ fieldAt fld = .error (.code .fieldIndex) := by
  cases hfield : Config.fields.entries[fld.toNat]? with
  | some f => exact .inl ⟨f, rfl, fieldAt_of_getElem? hfield⟩
  | none => exact .inr (fieldAt_of_length_le (List.getElem?_eq_none_iff.1 hfield))

/-- ENC of a field of the table completes: the table's fields fit the buffer (10_state.md R22 (b)). -/
theorem enc_ok_of_getElem? {i : Nat} {f : FieldSpec} (h : Config.fields.entries[i]? = some f)
    (raw : Nat) (m : Memory) : ∃ m', enc f raw m = .ok m' := by
  obtain ⟨m', henc, _⟩ := enc_writes_field raw m (neededBytes_le_of_getElem? h)
  exact ⟨m', henc⟩

theorem rawOf_raises_enumDomain_only (f : FieldSpec) (p : Int) (t : Nat) :
    (∃ raw, rawOf f p t = .ok raw) ∨ rawOf f p t = .error (.code .enumDomain) := by
  rcases rawOf_cases f p t with ⟨_, hraw⟩ | ⟨codes, _, _, hraw⟩
  · exact .inl ⟨_, hraw⟩
  · rcases enumenc_cases codes t with ⟨c, _, henum⟩ | ⟨_, henum⟩
    · exact .inl ⟨c, hraw.trans henum⟩
    · exact .inr (hraw.trans henum)

theorem encodeRaw_raisesOperandFaultsOnly (fld : FieldIndex) (arg : Operand) (m : Memory) :
    RaisesOperandFaultsOnly (encodeRaw fld arg m) := by
  rcases fieldAt_entry_or_fieldIndex fld with ⟨f, hentry, hfield⟩ | hfield
  · rw [encodeRaw_of_field hfield]
    exact .inl (enc_ok_of_getElem? hentry _ m)
  · exact .inr ⟨.fieldIndex, .inr rfl, encodeRaw_of_error hfield arg m⟩

theorem encodePhysical_raisesOperandFaultsOnly (fld : FieldIndex) (arg : Operand) (m : Memory) :
    RaisesOperandFaultsOnly (encodePhysical fld arg m) := by
  rcases fieldAt_entry_or_fieldIndex fld with ⟨f, hentry, hfield⟩ | hfield
  · rw [encodePhysical_of_field hfield]
    rcases rawOf_raises_enumDomain_only f arg.toInt arg.toNat with ⟨raw, hraw⟩ | hraw
    · rw [encPhysical_of_rawOf_ok hraw]
      exact .inl (enc_ok_of_getElem? hentry raw m)
    · exact .inr ⟨.enumDomain, .inl rfl, encPhysical_of_rawOf_error hraw m⟩
  · exact .inr ⟨.fieldIndex, .inr rfl, encodePhysical_of_error hfield arg m⟩

/-! ### The two ends of a command -/

/-- The two ends of a command started in `s` with FAULT = 0: it completes with one response of err 0 and
the status as it was, or it is the entry of a fault of its operands (60_exceptions.md R126, R128). -/
def State.CompletesOrFaults (s : State) (r : Result) : Prop :=
  (∃ t d, r = .next t ∧ t.fault = false ∧ t.fcode = s.fcode
    ∧ t.responses = s.responses ++ [⟨false, d⟩])
  ∨ ∃ c : FaultCode, c.IsOperandFault ∧ r = .next (s.takeFault c)

/-- An effect that leaves the status and the responses as they are completes. -/
theorem State.command_completes {s s' : State} (hf : s.fault = false) (d : BitVec 32)
    (hfault : s'.fault = s.fault) (hfcode : s'.fcode = s.fcode)
    (hresponses : s'.responses = s.responses) : s.CompletesOrFaults (s.command (.ok (s', d))) :=
  .inl ⟨s'.respond false d, d, State.command_ok hf s' d, hfault.trans hf, hfcode,
    by rw [State.respond_responses, hresponses]⟩

theorem State.command_faults {s : State} (hf : s.fault = false) {c : FaultCode}
    (hc : c.IsOperandFault) : s.CompletesOrFaults (s.command (.error (.code c))) :=
  .inr ⟨c, hc, State.command_raises hf c⟩

theorem State.command_writeFrame_completesOrFaults {s : State} (hf : s.fault = false)
    {r : Except Raise Memory} (hr : RaisesOperandFaultsOnly r) :
    s.CompletesOrFaults (s.command (State.silently (s.writeFrame r))) := by
  rcases hr with ⟨m, rfl⟩ | ⟨c, hc, rfl⟩
  · exact State.command_completes (s' := s.setFrame m) hf 0 rfl rfl rfl
  · exact State.command_faults hf hc

theorem State.command_setVariant_completesOrFaults {s : State} (hf : s.fault = false)
    (arg : Operand) : s.CompletesOrFaults (s.command (State.silently (setVariant arg s))) := by
  by_cases htag : arg.toNat < 2
  · rw [setVariant_of_lt htag]
    exact State.command_completes (s' := s.setEn _) hf 0 rfl rfl rfl
  · rw [setVariant_of_le (Nat.not_lt.1 htag)]
    exact State.command_faults hf (.inl rfl)

/-- Everything a command can do from FAULT = 0. -/
theorem exec_completesOrFaults {s : State} (hf : s.fault = false) (i : Instr) :
    s.CompletesOrFaults (exec i s) := by
  cases i with
  | reset =>
    rw [exec_reset]
    exact State.command_writeFrame_completesOrFaults hf (.inl ⟨_, zeroFrame_eq s.frame⟩)
  | seten arg =>
    rw [exec_seten]
    exact State.command_setVariant_completesOrFaults hf arg
  | setcmd arg =>
    rw [exec_setcmd]
    exact State.command_completes (s' := s.setCmd _) hf 0 rfl rfl rfl
  | render =>
    obtain ⟨_, _, m, _, _, _, hrender⟩ := renderFrame_writes_both_fields s
    rw [exec_render]
    exact State.command_writeFrame_completesOrFaults hf (.inl ⟨m, hrender⟩)
  | getper =>
    rw [exec_getper]
    exact State.command_completes hf _ rfl rfl rfl
  | getid =>
    rw [exec_getid]
    exact State.command_completes hf _ rfl rfl rfl
  | encu fld arg =>
    rw [exec_encu]
    exact State.command_writeFrame_completesOrFaults hf
      (encodeRaw_raisesOperandFaultsOnly fld arg s.frame)
  | encp fld arg =>
    rw [exec_encp]
    exact State.command_writeFrame_completesOrFaults hf
      (encodePhysical_raisesOperandFaultsOnly fld arg s.frame)

/-! ### The step function of R128 -/

theorem acceptWord_of_decode_ok {w : CommandWord} {i : Instr} (hi : decode w = .ok i) (s : State) :
    acceptWord w s = exec i s := by
  rw [acceptWord, hi]

/-- The step on a word that is rejected, with FAULT = 0: the entry of IllegalCommand. -/
theorem step_of_decode_rejects {s : State} {c : CommandPorts} {rest : List PortEvent}
    (hp : s.pending = .command c :: rest) (hf : s.fault = false) {e : DecodeReject}
    (he : decode c.word = .error e) :
    step s = .next ((s.setPending rest).takeFault .illegalCommand) :=
  unmatchedWordRaisesIllegalCommand.1 s c rest hp hf
    ((matchesNoRow_iff_decode_rejects c.word).2 ⟨e, he⟩)

theorem step_of_decode_ok {s : State} {c : CommandPorts} {rest : List PortEvent}
    (hp : s.pending = .command c :: rest) {i : Instr} (hi : decode c.word = .ok i) :
    step s = exec i (s.setPending rest) :=
  (step_of_command hp).trans (acceptWord_of_decode_ok hi _)

/-- Settles O9: the refusal, the illegal word and the decoded command, whose two ends are those of
`exec_completesOrFaults`. -/
theorem commandStepFollowsTheStepFunction : Obligations.CommandStepFollowsTheStepFunction := by
  intro s c rest hp
  refine ⟨fun hf => step_of_command_faulted hf hp, fun hf e he => step_of_decode_rejects hp hf he,
    fun hf i hi => ⟨step_of_decode_ok hp hi, ?_⟩⟩
  rw [step_of_decode_ok hp hi]
  rcases exec_completesOrFaults (s := s.setPending rest) hf i with hcompletes | ⟨f, _, hfaults⟩
  · exact .inl hcompletes
  · exact .inr ⟨f, hfaults⟩

/-- A step on a command word that sets FAULT is the entry of a fault. -/
theorem eq_takeFault_of_step {s t : State} {c : CommandPorts} {rest : List PortEvent}
    (hp : s.pending = .command c :: rest) (hf : s.fault = false) (hstep : step s = .next t)
    (ht : t.fault = true) : ∃ f : FaultCode, t = (s.setPending rest).takeFault f := by
  cases hdecode : decode c.word with
  | error e =>
    rw [step_of_decode_rejects hp hf hdecode] at hstep
    cases hstep
    exact ⟨_, rfl⟩
  | ok i =>
    rw [step_of_decode_ok hp hdecode] at hstep
    rcases exec_completesOrFaults (s := s.setPending rest) hf i with
      ⟨u, _, hexec, hu, _⟩ | ⟨f, _, hexec⟩ <;> rw [hexec] at hstep <;> cases hstep
    · exact absurd ht (hu ▸ Bool.false_ne_true)
    · exact ⟨f, rfl⟩

/-- Settles O25: the state after the step is `State.takeFault`, and the ports show its two status
writes. -/
theorem faultEntryChangesOnlyTheStatus : Obligations.FaultEntryChangesOnlyTheStatus := by
  intro s t c rest hp hf hstep ht
  obtain ⟨f, rfl⟩ := eq_takeFault_of_step hp hf hstep ht
  exact ⟨f, rfl, (faultBit_eq_one_iff _).2 rfl, rfl⟩

end Sys2Proof.Machine
end

section
/-! The causes of the faults (60_exceptions.md R123 to R125): O27, O28 and O29. -/

namespace Sys2Proof.Machine

/-- Settles O27: the raising parts are those of O15 and O21, and RENDER completes by O17. -/
theorem enumDomainIsRaisedByTheOutOfSetTag : Obligations.EnumDomainIsRaisedByTheOutOfSetTag := by
  intro s hf
  refine ⟨fun arg => (setenStoresTheVariantTag arg s hf).2, fun fld arg => ?_, ?_⟩
  · obtain ⟨_, hdomain, _⟩ := encpWritesTheEncodedValueOfItsField fld arg s hf
    exact hdomain
  · obtain ⟨_, _, m, _, hrender, _⟩ := renderMarshalsTheLogicalState s hf
    exact ⟨_, hrender, hf⟩

/-- Settles O28: an index of 2 or more is beyond the table's two entries, where O20 and O21 have both
commands raise FieldIndex. -/
theorem fieldIndexIsRaisedBeyondTheTable : Obligations.FieldIndexIsRaisedBeyondTheTable := by
  refine ⟨rfl, fun fld arg s hf hbeyond => ?_⟩
  obtain ⟨_, hencu⟩ := encuWritesTheRawBitsOfItsField fld arg s hf
  obtain ⟨_, _, hencp⟩ := encpWritesTheEncodedValueOfItsField fld arg s hf
  exact ⟨hencu hbeyond, hencp hbeyond⟩

theorem FaultCode.IsOperandFault.code_ne_bufferSpan {c : FaultCode} (h : c.IsOperandFault) :
    c.code ≠ FaultCode.bufferSpan.code := by
  rcases h with rfl | rfl <;> decide

/-- Settles O29: ENC checks the span before anything else, and a command that ends with FAULT = 1 is the
entry of EnumDomain or FieldIndex. -/
theorem bufferSpanIsRaisedByEncAndByNoCommand :
    Obligations.BufferSpanIsRaisedByEncAndByNoCommand := by
  refine ⟨fun f raw m hspan => enc_bufferSpan raw m hspan, fun i s t hf hexec ht => ?_⟩
  rcases exec_completesOrFaults hf i with ⟨u, _, hend, hu, _⟩ | ⟨c, hc, hend⟩ <;>
    rw [hend] at hexec <;> cases hexec
  · exact absurd ht (hu ▸ Bool.false_ne_true)
  · exact hc.code_ne_bufferSpan

end Sys2Proof.Machine
end

section
/-! Encoding against decoding (30_encoding.md R52, R58, R60): O1, O2, O4, O5, O6 and O7. -/

namespace Sys2Proof

/-! ### From a command to its word and back -/

/-- The cases of `decode` on a word given by its three parts. -/
theorem decode_assembleWord (op : BitVec 4) (fld : FieldIndex) (arg : Operand) :
    decode (assembleWord op fld arg) =
      if op = 0x1#4 then decodeBare (assembleWord op fld arg) .reset
      else if op = 0x2#4 then decodeArg (assembleWord op fld arg) .seten
      else if op = 0x3#4 then decodeArg (assembleWord op fld arg) .setcmd
      else if op = 0x4#4 then decodeBare (assembleWord op fld arg) .render
      else if op = 0x5#4 then decodeBare (assembleWord op fld arg) .getper
      else if op = 0x6#4 then decodeBare (assembleWord op fld arg) .getid
      else if op = 0x7#4 then .ok (.encu fld arg)
      else if op = 0x8#4 then .ok (.encp fld arg)
      else .error (.reservedOpcode op) := by
  rw [decode_eq_ite, Laws.opField_assembleWord, Laws.fldField_assembleWord,
    Laws.argField_assembleWord]

theorem decodeBare_assembleWord (op : BitVec 4) (i : Instr) :
    decodeBare (assembleWord op 0 0) i = .ok i :=
  if_pos ⟨Laws.fldField_assembleWord op 0 0, Laws.argField_assembleWord op 0 0⟩

theorem decodeArg_assembleWord (op : BitVec 4) (arg : Operand) (i : Operand → Instr) :
    decodeArg (assembleWord op 0 arg) i = .ok (i arg) := by
  rw [decodeArg, if_pos (Laws.fldField_assembleWord op 0 arg), Laws.argField_assembleWord]

/-- Settles O1: each command's opcode selects its own case of the decoder, whose must-be-zero fields
`encode` has filled with zeros. -/
theorem decodeEncodeRoundTrip : Obligations.DecodeEncodeRoundTrip := by
  intro i
  cases i with
  | reset => exact (decode_assembleWord 0x1 0 0).trans (decodeBare_assembleWord 0x1 .reset)
  | seten arg => exact (decode_assembleWord 0x2 0 arg).trans (decodeArg_assembleWord _ _ _)
  | setcmd arg => exact (decode_assembleWord 0x3 0 arg).trans (decodeArg_assembleWord _ _ _)
  | render => exact (decode_assembleWord 0x4 0 0).trans (decodeBare_assembleWord 0x4 .render)
  | getper => exact (decode_assembleWord 0x5 0 0).trans (decodeBare_assembleWord 0x5 .getper)
  | getid => exact (decode_assembleWord 0x6 0 0).trans (decodeBare_assembleWord 0x6 .getid)
  | encu fld arg => exact decode_assembleWord 0x7 fld arg
  | encp fld arg => exact decode_assembleWord 0x8 fld arg

/-! ### From a word to its command and back -/

/-- A command without operands is decoded only from its word: the must-be-zero fields were checked. -/
theorem encode_of_decodeBare_ok {w : CommandWord} {op : BitVec 4} {i j : Instr} (hop : opField w = op)
    (hj : encode j = assembleWord op 0 0) (h : decodeBare w j = .ok i) : encode i = w := by
  unfold decodeBare at h
  split at h
  case isTrue hzero =>
    obtain ⟨hfld, harg⟩ := hzero
    rw [← Except.ok.inj h, hj, ← hop, ← hfld, ← harg, assembleWord_fields]
  case isFalse => cases h

/-- A command with an operand and no field index is decoded only from its word. -/
theorem encode_of_decodeArg_ok {w : CommandWord} {op : BitVec 4} {i : Instr} {j : Operand → Instr}
    (hop : opField w = op) (hj : encode (j (argField w)) = assembleWord op 0 (argField w))
    (h : decodeArg w j = .ok i) : encode i = w := by
  unfold decodeArg at h
  split at h
  case isTrue hfld => rw [← Except.ok.inj h, hj, ← hop, ← hfld, assembleWord_fields]
  case isFalse => cases h

/-- A command with both operands has no must-be-zero field. -/
theorem encode_of_fields {w : CommandWord} {op : BitVec 4} {i : Instr} (hop : opField w = op)
    (hi : encode i = assembleWord op (fldField w) (argField w)) : encode i = w := by
  rw [hi, ← hop, assembleWord_fields]

/-- Settles O2: in the case its opcode selects, a word that decodes is the opcode, the must-be-zero
fields and the operands of its command. -/
theorem encodeDecodeRoundTrip : Obligations.EncodeDecodeRoundTrip := by
  intro w i h
  rw [decode_eq_ite] at h
  split_ifs at h with hop hop hop hop hop hop hop hop
  · exact encode_of_decodeBare_ok hop rfl h
  · exact encode_of_decodeArg_ok hop rfl h
  · exact encode_of_decodeArg_ok hop rfl h
  · exact encode_of_decodeBare_ok hop rfl h
  · exact encode_of_decodeBare_ok hop rfl h
  · exact encode_of_decodeBare_ok hop rfl h
  · exact Except.ok.inj h ▸ encode_of_fields hop rfl
  · exact Except.ok.inj h ▸ encode_of_fields hop rfl

/-! ### The rows of the opcode map -/

/-- Settles O4: the decoder rejects exactly the words that match no row
(`matchesNoRow_iff_decode_rejects`), and what it does not reject it decodes. -/
theorem decodeAcceptsExactlyTheTableRows : Obligations.DecodeAcceptsExactlyTheTableRows := by
  intro w
  have hok : (∃ i, decode w = .ok i) ↔ ¬ ∃ e, decode w = .error e := by
    cases decode w <;> simp
  rw [hok, ← matchesNoRow_iff_decode_rejects]
  push Not
  rfl

/-- The word of every command selects the row of its mnemonic and no other. -/
theorem encodesInRow (i : Instr) : Laws.EncodesInRow.Statement i := by
  cases i with
  | reset => exact Laws.EncodesInRow.reset
  | seten arg => exact Laws.EncodesInRow.seten arg
  | setcmd arg => exact Laws.EncodesInRow.setcmd arg
  | render => exact Laws.EncodesInRow.render
  | getper => exact Laws.EncodesInRow.getper
  | getid => exact Laws.EncodesInRow.getid
  | encu fld arg => exact Laws.EncodesInRow.encu fld arg
  | encp fld arg => exact Laws.EncodesInRow.encp fld arg

/-- Settles O5: by O2 the word is its command's word, which selects the row of the mnemonic alone. -/
theorem decodedWordMatchesItsRowOnly : Obligations.DecodedWordMatchesItsRowOnly := by
  intro w i h r hr
  have hselects : r.selects w = decide (r.mnemonic = i.mnemonic) :=
    encodeDecodeRoundTrip w i h ▸ encodesInRow i r hr
  simpa [OpcodeRow.selects] using congrArg (· = true) hselects

/-- Settles O6: the eight legal words are the words of their commands (O1), and the two illegal ones
end in the case of a reserved opcode and of a must-be-zero field. -/
theorem specWordsDecode : Obligations.SpecWordsDecode :=
  ⟨decodeEncodeRoundTrip .reset, decodeEncodeRoundTrip (.seten 1),
    decodeEncodeRoundTrip (.setcmd 0xFFFFFFFB), decodeEncodeRoundTrip .render,
    decodeEncodeRoundTrip .getper, decodeEncodeRoundTrip .getid,
    decodeEncodeRoundTrip (.encu 1 0x2A), decodeEncodeRoundTrip (.encp 0 1),
    decode_reservedOpcode (.inl rfl), by decide⟩

end Sys2Proof

namespace Sys2Proof.Machine

/-! ### The assembler -/

/-- The column "encodes" of 30_encoding.md R60 is the word of the command that the line names. -/
theorem asmWord_eq_encode {l : AsmLine} {i : Instr} (h : asmInstr l = some i) :
    asmWord l = encode i := by
  cases l with
  | word w => cases h
  | reset | seten | setcmd | render | getper | getid | encu | encp => cases h; rfl

/-- Settles O7: a line in range assembles to the word of its command, which O1 decodes. -/
theorem assembledLineDecodesToItsCommand : Obligations.AssembledLineDecodesToItsCommand := by
  intro l i hi hwf
  exact ⟨asmWord l, if_pos hwf, asmWord_eq_encode hi ▸ decodeEncodeRoundTrip i⟩

end Sys2Proof.Machine
end

section
/-! What a command, an accepted word and a step can do, each said once as an inductive relation between
the state before and the state after, from which later proofs read off what is written and what is kept:
O39, O37 and O55. -/

namespace Sys2Proof.Machine

/-! ### The effect of a command -/

/-- The effect that `exec i` runs in the frame of a command (60_exceptions.md R128). -/
def effectOf : Instr → State → Except Raise (State × BitVec 32)
  | .reset, s => State.silently (s.writeFrame (zeroFrame s.frame))
  | .seten arg, s => State.silently (setVariant arg s)
  | .setcmd arg, s => State.silently (.ok (s.setCmd (BitVec.ofInt 8 (saturated arg))))
  | .render, s => State.silently (s.writeFrame (renderFrame s))
  | .getper, s => .ok (s, Config.periodMs)
  | .getid, s => .ok (s, Config.arbId)
  | .encu fld arg, s => State.silently (s.writeFrame (encodeRaw fld arg s.frame))
  | .encp fld arg, s => State.silently (s.writeFrame (encodePhysical fld arg s.frame))

theorem exec_eq_command_effectOf (i : Instr) (s : State) : exec i s = s.command (effectOf i s) := by
  cases i <;> rfl

/-- `s.Completes i s'`: the effect of `i` on `s` completes and leaves `s'`, before the response. -/
inductive State.Completes (s : State) : Instr → State → Prop
  | reset {m : Memory} (h : zeroFrame s.frame = .ok m) : s.Completes .reset (s.setFrame m)
  | seten {arg : Operand} (h : arg.toNat < 2) :
      s.Completes (.seten arg) (s.setEn (arg.extractLsb' 0 1))
  | setcmd (arg : Operand) : s.Completes (.setcmd arg) (s.setCmd (BitVec.ofInt 8 (saturated arg)))
  | render {m : Memory} (h : renderFrame s = .ok m) : s.Completes .render (s.setFrame m)
  | getper : s.Completes .getper s
  | getid : s.Completes .getid s
  | encu {fld : FieldIndex} {arg : Operand} {m : Memory} (h : encodeRaw fld arg s.frame = .ok m) :
      s.Completes (.encu fld arg) (s.setFrame m)
  | encp {fld : FieldIndex} {arg : Operand} {m : Memory}
      (h : encodePhysical fld arg s.frame = .ok m) : s.Completes (.encp fld arg) (s.setFrame m)

theorem State.Completes.effectOf_eq {s s' : State} {i : Instr} (h : s.Completes i s') :
    effectOf i s = .ok (s', completionData i) := by
  cases h with
  | seten h => simp [effectOf, setVariant_of_lt h, completionData]
  | setcmd | getper | getid => rfl
  | reset h | render h | encu h | encp h => simp [effectOf, h, completionData]

/-- A command that writes FRAME completes with the buffer it computed, or raises what that computation
raised. -/
theorem State.silently_writeFrame_cases (s : State) {r : Except Raise Memory}
    (hr : RaisesOperandFaultsOnly r) :
    (∃ m, r = .ok m) ∨ ∃ c : FaultCode, c.IsOperandFault
      ∧ State.silently (s.writeFrame r) = .error (.code c) := by
  rcases hr with ⟨m, rfl⟩ | ⟨c, hc, rfl⟩
  · exact .inl ⟨m, rfl⟩
  · exact .inr ⟨c, hc, rfl⟩

/-- Everything the effect of a command can be: it completes, or raises a fault of the operands. -/
theorem effectOf_cases (i : Instr) (s : State) :
    (∃ s', s.Completes i s')
      ∨ ∃ c : FaultCode, c.IsOperandFault ∧ effectOf i s = .error (.code c) := by
  cases i with
  | reset => exact .inl ⟨_, .reset (zeroFrame_eq s.frame)⟩
  | seten arg =>
    by_cases htag : arg.toNat < 2
    · exact .inl ⟨_, .seten htag⟩
    · refine .inr ⟨.enumDomain, .inl rfl, ?_⟩
      rw [effectOf, setVariant_of_le (Nat.not_lt.1 htag), State.silently_error]
  | setcmd arg => exact .inl ⟨_, .setcmd arg⟩
  | render =>
    obtain ⟨_, _, m, _, _, _, hrender⟩ := renderFrame_writes_both_fields s
    exact .inl ⟨_, .render hrender⟩
  | getper => exact .inl ⟨s, .getper⟩
  | getid => exact .inl ⟨s, .getid⟩
  | encu fld arg =>
    exact (s.silently_writeFrame_cases (encodeRaw_raisesOperandFaultsOnly fld arg s.frame)).imp_left
      fun ⟨_, hm⟩ => ⟨_, .encu hm⟩
  | encp fld arg =>
    exact (s.silently_writeFrame_cases
      (encodePhysical_raisesOperandFaultsOnly fld arg s.frame)).imp_left
      fun ⟨_, hm⟩ => ⟨_, .encp hm⟩

/-! ### What a completed command keeps and writes -/

namespace State.Completes

variable {s s' : State} {i : Instr}

theorem pending_eq (h : s.Completes i s') : s'.pending = s.pending := by cases h <;> rfl

theorem responses_eq (h : s.Completes i s') : s'.responses = s.responses := by cases h <;> rfl

theorem fault_eq (h : s.Completes i s') : s'.fault = s.fault := by cases h <;> rfl

theorem fcode_eq (h : s.Completes i s') : s'.fcode = s.fcode := by cases h <;> rfl

/-- EN is written by SETEN only (10_state.md R11). -/
theorem seten_of_en_ne (h : s.Completes i s') (hne : s'.en ≠ s.en) : ∃ arg, i = .seten arg := by
  cases h with
  | @seten arg _ => exact ⟨arg, rfl⟩
  | _ => exact absurd rfl hne

/-- CMD is written by SETCMD only (10_state.md R12). -/
theorem setcmd_of_cmd_ne (h : s.Completes i s') (hne : s'.cmd ≠ s.cmd) : ∃ arg, i = .setcmd arg := by
  cases h with
  | setcmd arg => exact ⟨arg, rfl⟩
  | _ => exact absurd rfl hne

/-- FRAME is written by RESET, RENDER, ENCU and ENCP only (20_memory.md R30). -/
theorem frameWriter_of_frame_ne (h : s.Completes i s') (hne : s'.frame ≠ s.frame) :
    i = .reset ∨ i = .render ∨ (∃ fld arg, i = .encu fld arg) ∨ ∃ fld arg, i = .encp fld arg := by
  cases h with
  | reset => exact .inl rfl
  | render => exact .inr (.inl rfl)
  | @encu fld arg => exact .inr (.inr (.inl ⟨fld, arg, rfl⟩))
  | @encp fld arg => exact .inr (.inr (.inr ⟨fld, arg, rfl⟩))
  | seten | setcmd | getper | getid => exact absurd rfl hne

end State.Completes

/-! ### Commands, accepted words and steps -/

/-- A command that completes does so with its response, when FAULT = 0. -/
theorem exec_of_completes {s s' : State} {i : Instr} (hf : s.fault = false) (h : s.Completes i s') :
    exec i s = .next (s'.respond false (completionData i)) := by
  rw [exec_eq_command_effectOf, h.effectOf_eq, State.command_ok hf]

/-- `s.Runs i t`: everything `exec i` can answer from `s`. -/
inductive State.Runs (s : State) (i : Instr) : State → Prop
  | refused (hf : s.fault = true) : s.Runs i s.refuse
  | faulted (hf : s.fault = false) (c : FaultCode) (hc : c.IsOperandFault)
      (he : effectOf i s = .error (.code c)) : s.Runs i (s.takeFault c)
  | completed (hf : s.fault = false) {s' : State} (h : s.Completes i s') :
      s.Runs i (s'.respond false (completionData i))

theorem exec_runs (i : Instr) (s : State) : ∃ t, exec i s = .next t ∧ s.Runs i t := by
  cases hf : s.fault with
  | true => exact ⟨_, exec_faulted hf i, .refused hf⟩
  | false =>
    rcases effectOf_cases i s with ⟨s', h⟩ | ⟨c, hc, he⟩
    · exact ⟨_, exec_of_completes hf h, .completed hf h⟩
    · exact ⟨_, by rw [exec_eq_command_effectOf, he, State.command_raises hf], .faulted hf c hc he⟩

theorem State.Runs.of_exec {s t : State} {i : Instr} (h : exec i s = .next t) : s.Runs i t := by
  obtain ⟨t', hexec, hruns⟩ := exec_runs i s
  cases hexec.symm.trans h
  exact hruns

/-- `s.Accepts w t`: everything the acceptance of the word `w` can answer from `s`. -/
inductive State.Accepts (s : State) (w : CommandWord) : State → Prop
  | refused (hf : s.fault = true) : s.Accepts w s.refuse
  | faulted (hf : s.fault = false) (c : FaultCode) : s.Accepts w (s.takeFault c)
  | completed (hf : s.fault = false) {i : Instr} {s' : State} (hi : decode w = .ok i)
      (h : s.Completes i s') : s.Accepts w (s'.respond false (completionData i))

theorem acceptWord_accepts (w : CommandWord) (s : State) :
    ∃ t, acceptWord w s = .next t ∧ s.Accepts w t := by
  rcases acceptWord_cases w s with ⟨_, _, haccept⟩ | ⟨i, hi, haccept⟩
  · cases hf : s.fault with
    | true => exact ⟨_, acceptWord_faulted hf w, .refused hf⟩
    | false => exact ⟨_, haccept.trans (State.command_raises hf _), .faulted hf _⟩
  · obtain ⟨t, hexec, hruns⟩ := exec_runs i s
    refine ⟨t, haccept.trans hexec, ?_⟩
    cases hruns with
    | refused hf => exact .refused hf
    | faulted hf c => exact .faulted hf c
    | completed hf h => exact .completed hf hi h

/-- `s.Steps t`: everything the step can answer from `s`. -/
inductive State.Steps (s : State) : State → Prop
  | waits (hp : s.pending = []) : s.Steps s
  | accepts {c : CommandPorts} {rest : List PortEvent} {t : State}
      (hp : s.pending = .command c :: rest) (h : (s.setPending rest).Accepts c.word t) : s.Steps t
  | resets {p : Option CommandPorts} {rest : List PortEvent}
      (hp : s.pending = .hardwareReset p :: rest) : s.Steps (s.setPending rest).hardwareReset

/-- The step always answers a next state. -/
theorem step_steps (s : State) : ∃ t, step s = .next t ∧ s.Steps t := by
  rcases step_cases s with ⟨hp, hstep⟩ | ⟨c, rest, hp, hstep⟩ | ⟨_, _, hp, hstep⟩
  · exact ⟨_, hstep, .waits hp⟩
  · obtain ⟨t, haccept, haccepts⟩ := acceptWord_accepts c.word (s.setPending rest)
    exact ⟨t, hstep.trans haccept, .accepts hp haccepts⟩
  · exact ⟨_, hstep, .resets hp⟩

theorem State.Steps.of_step {s t : State} (h : step s = .next t) : s.Steps t := by
  obtain ⟨t', hstep, hsteps⟩ := step_steps s
  cases hstep.symm.trans h
  exact hsteps

/-- Settles O39: ENC checks the bound before it reads or writes, and every command answers a state. -/
theorem encNeverLeavesTheFrameBuffer : Obligations.EncNeverLeavesTheFrameBuffer := by
  refine ⟨enc_neverStops, fun i s => ?_⟩
  obtain ⟨t, hexec, _⟩ := exec_runs i s
  exact ⟨t, hexec⟩

/-- Settles O37: a refusal and a fault entry write none of the three, and a completed command writes
the one that names it. -/
theorem onlyTheNamedCommandsWriteEachRegister :
    Obligations.OnlyTheNamedCommandsWriteEachRegister := by
  intro s t e rest hp hstep
  cases State.Steps.of_step hstep with
  | waits hp' => rw [hp'] at hp; cases hp
  | resets hp' => rw [hp'] at hp; cases hp; exact .inl ⟨_, rfl⟩
  | @accepts c rest' _ hp' haccepts =>
    rw [hp'] at hp
    cases hp
    refine .inr ⟨c, rfl, ?_⟩
    cases haccepts with
    | refused | faulted => exact ⟨fun h => absurd rfl h, fun h => absurd rfl h, fun h => absurd rfl h⟩
    | completed _ hi h =>
      rw [hi]
      simp only [Except.ok.injEq]
      exact ⟨h.seten_of_en_ne, h.setcmd_of_cmd_ne, h.frameWriter_of_frame_ne⟩

/-! ### The events and the responses are not read -/

/-- The state with other events and other responses: the fields that are the model's own. -/
def State.withHost (s : State) (es : List PortEvent) (rs : List Response) : State :=
  { s with pending := es, responses := rs }

theorem State.eq_withHost_of_block_eq {s s' : State} (h : s.block = s'.block) :
    s' = s.withHost s'.pending s'.responses := by
  cases s
  cases s'
  cases h
  rfl

theorem State.silently_writeFrame_withHost (s : State) (es : List PortEvent) (rs : List Response)
    (r : Except Raise Memory) :
    State.silently ((s.withHost es rs).writeFrame r)
      = (State.silently (s.writeFrame r)).map fun p => (p.1.withHost es rs, p.2) := by
  cases r <;> rfl

/-- No effect reads the events or the responses, or writes them (10_state.md R25). -/
theorem effectOf_withHost (i : Instr) (s : State) (es : List PortEvent) (rs : List Response) :
    effectOf i (s.withHost es rs) = (effectOf i s).map fun p => (p.1.withHost es rs, p.2) := by
  cases i with
  | reset | render | encu | encp =>
    unfold effectOf
    exact s.silently_writeFrame_withHost es rs _
  | seten arg =>
    simp only [effectOf, setVariant]
    split <;> rfl
  | setcmd | getper | getid => rfl

/-- A command answers the same block and the same response whatever the events and the responses
are. -/
theorem exec_withHost {i : Instr} {s t : State} (h : exec i s = .next t) (es : List PortEvent)
    (rs : List Response) :
    ∃ r : Response, t.responses = s.responses ++ [r]
      ∧ exec i (s.withHost es rs) = .next (t.withHost es (rs ++ [r])) := by
  cases State.Runs.of_exec h with
  | refused hf => exact ⟨_, rfl, exec_faulted (s := s.withHost es rs) hf i⟩
  | faulted hf c _ he =>
    refine ⟨_, rfl, ?_⟩
    rw [exec_eq_command_effectOf, effectOf_withHost, he]
    exact State.command_raises (s := s.withHost es rs) hf c
  | completed hf hc =>
    refine ⟨_, by rw [State.respond_responses, hc.responses_eq], ?_⟩
    rw [exec_eq_command_effectOf, effectOf_withHost, hc.effectOf_eq]
    exact State.command_ok (s := s.withHost es rs) hf _ _

/-- Settles O55: two states with one block differ in events and responses only. -/
theorem effectDependsOnTheBlockStateOnly : Obligations.EffectDependsOnTheBlockStateOnly := by
  intro i s s' t t' hblock ht ht'
  rw [State.eq_withHost_of_block_eq hblock] at ht'
  obtain ⟨r, hresponses, hexec⟩ := exec_withHost ht s'.pending s'.responses
  cases hexec.symm.trans ht'
  exact ⟨rfl, r, hresponses, rfl⟩

end Sys2Proof.Machine
end

section
/-! The step on each kind of event (60_exceptions.md R128, 70_reset_and_hazards.md R140, R152), O8, O10 and
O11; the reset state (10_state.md R27), O12; and the invariant (R29), O48 and O49. -/

namespace Sys2Proof.Machine

/-! ### The step -/

theorem step_of_no_event {s : State} (hp : s.pending = []) : step s = .next s := by
  rw [step, serve, hp]

theorem step_of_hardwareReset {s : State} {p : Option CommandPorts} {rest : List PortEvent}
    (hp : s.pending = .hardwareReset p :: rest) :
    step s = .next (s.setPending rest).hardwareReset := by
  rw [step, serve, hp]
  rfl

/-- Settles O8: the step accepts the word, and accepting a word that decodes is `exec`. -/
theorem stepRunsTheDecodedCommand : Obligations.StepRunsTheDecodedCommand := by
  intro s c rest i hp hi
  exact step_of_decode_ok hp hi

/-- Settles O10: with an empty list `serve` answers the state itself. -/
theorem stepWaitsWithoutAnEvent : Obligations.StepWaitsWithoutAnEvent := by
  intro s hp
  exact step_of_no_event hp

/-- Settles O11: the step is `State.hardwareReset` after the event is taken, whatever is presented with
it. -/
theorem hardwareResetRestoresEveryPieceOfState :
    Obligations.HardwareResetRestoresEveryPieceOfState := by
  intro s presented rest hp
  exact ⟨_, step_of_hardwareReset hp, rfl, rfl, Memory.byte_nil, rfl, rfl, rfl, rfl⟩

/-! ### The reset state -/

/-- Settles O12: an empty list of cells reads as zero, and the outputs are functions of the state. -/
theorem resetStateHoldsTheResetValues : Obligations.ResetStateHoldsTheResetValues :=
  ⟨rfl, rfl, Memory.byte_nil, rfl, rfl, rfl, rfl, rfl, rfl⟩

/-- Settles O48: the numbers are those of the reset table, and the empty list is canonical. -/
theorem resetStateMeetsTheInvariant : Obligations.ResetStateMeetsTheInvariant :=
  ⟨by decide, by decide, by decide, State.reset_frame_wf⟩

/-! ### The invariant -/

theorem FaultCode.code_ne_zero (c : FaultCode) : c.code ≠ 0 := by cases c <;> decide

theorem FaultCode.code_le_four (c : FaultCode) : c.code.toNat ≤ 4 := by cases c <;> decide

/-- SETCMD saturates before it narrows (41_frame_record.md R94). -/
theorem toNat_saturated_le (arg : Operand) : (BitVec.ofInt 8 (saturated arg)).toNat ≤ 100 := by
  have hlo : 0 ≤ saturated arg := saturated_eq_clamp arg ▸ le_clamp (by decide)
  have hhi : saturated arg ≤ 100 := saturated_eq_clamp arg ▸ clamp_le (by decide)
  have hbyte := toNat_ofInt_byte hlo (by omega)
  omega

/-- Fault entry writes the flag and a code that is not 0 together (60_exceptions.md R126). -/
theorem State.takeFault_inv {s : State} (hs : s.Inv) (c : FaultCode) : (s.takeFault c).Inv := by
  obtain ⟨hcmd, _, _, hwf⟩ := hs
  have hstatus : (s.takeFault c).fault = false ↔ (s.takeFault c).fcode = 0 :=
    iff_of_false Bool.true_eq_false.mp c.code_ne_zero
  exact ⟨hcmd, hstatus, c.code_le_four, hwf⟩

/-- A command that completes keeps the status, stores a CMD of at most 100 and writes FRAME in canonical
form. -/
theorem State.Completes.inv {s s' : State} {i : Instr} (h : s.Completes i s') (hs : s.Inv) :
    s'.Inv := by
  obtain ⟨hcmd, hstatus, hcode, hwf⟩ := hs
  cases h with
  | reset h => exact ⟨hcmd, hstatus, hcode, wf_zeroFrame hwf h⟩
  | render h => exact ⟨hcmd, hstatus, hcode, wf_renderFrame hwf h⟩
  | encu h => exact ⟨hcmd, hstatus, hcode, wf_encodeRaw hwf h⟩
  | encp h => exact ⟨hcmd, hstatus, hcode, wf_encodePhysical hwf h⟩
  | setcmd arg => exact ⟨toNat_saturated_le arg, hstatus, hcode, hwf⟩
  | seten | getper | getid => exact ⟨hcmd, hstatus, hcode, hwf⟩

/-- `State.Inv` says nothing of the events and the responses. -/
theorem State.Inv.congr_block {s s' : State} (hs : s.Inv) (h : s.block = s'.block) : s'.Inv := by
  rw [State.eq_withHost_of_block_eq h]
  exact hs

theorem State.Accepts.inv {s t : State} {w : CommandWord} (h : s.Accepts w t) (hs : s.Inv) :
    t.Inv := by
  cases h with
  | refused => exact hs.congr_block rfl
  | faulted _ c => exact State.takeFault_inv hs c
  | completed _ _ h => exact (h.inv hs).congr_block rfl

theorem State.Steps.inv {s t : State} (h : s.Steps t) (hs : s.Inv) : t.Inv := by
  cases h with
  | waits => exact hs
  | accepts _ h => exact h.inv (hs.congr_block rfl)
  | resets => exact State.Inv.congr_block resetStateMeetsTheInvariant rfl

/-- Settles O49: waiting and the refusal keep the block, a fault entry and a completed command keep the
invariant each by its own lemma, and a hardware reset restores the reset state (O48). -/
theorem everyStepKeepsTheInvariant : Obligations.EveryStepKeepsTheInvariant := by
  intro s t hs hstep
  exact (State.Steps.of_step hstep).inv hs

end Sys2Proof.Machine
end

section
/-! Laws of the device's commands: ENCP in closed form (40_codec.md R76), O22; no fault for a value out of
range (60_exceptions.md R134), O30; and the laws of the frame record (41_frame_record.md), O31 to O36. -/

namespace Sys2Proof.Machine

/-! ### ENCP on the two fields -/

/-- The code of a tag of `FIELDS[0]` is the tag (10_state.md R20). -/
theorem brakePedalEnCtrl_code {t : Nat} (h : t < 2) : [0, 1][t]? = some t := by
  match t with
  | 0 => rfl
  | 1 => rfl

/-- Settles O22: both fields are one aligned byte each, the raw value of the pedal field is the clamp to
the field width and that of the enable field is the tag. -/
theorem encpOnTheDeviceFields : Obligations.EncpOnTheDeviceFields := by
  intro arg s hf
  refine ⟨?_, fun htag => ?_⟩
  · obtain ⟨hwrites, _⟩ := encpWritesTheEncodedValueOfItsField 1 arg s hf
    obtain ⟨m, hexec, hwritten⟩ := hwrites Config.brakePedalCmd _ rfl (.inl ⟨rfl, rfl⟩)
    have hbyte := FieldWritten.byte_of_aligned (k := 1) hwritten rfl rfl (by decide)
    have hraw : p2r Config.brakePedalCmd arg.toInt < 2 ^ 8 := p2r_lt _ _
    refine ⟨m, hexec, ?_, fun k hk => by rw [hbyte, if_neg hk]⟩
    rw [hbyte, if_pos rfl, BitVec.toNat_ofNat, Nat.mod_eq_of_lt hraw, coe_p2r_brakePedalCmd]
    rfl
  · obtain ⟨hwrites, _⟩ := encpWritesTheEncodedValueOfItsField 0 arg s hf
    obtain ⟨m, hexec, hwritten⟩ := hwrites Config.brakePedalEnCtrl arg.toNat rfl
      (.inr ⟨[0, 1], ["DISABLE", "ENABLE"], rfl, brakePedalEnCtrl_code htag⟩)
    have hbyte := FieldWritten.byte_of_aligned (k := 0) hwritten rfl rfl (by decide)
    refine ⟨m, hexec, ?_, fun k hk => by rw [hbyte, if_neg hk]⟩
    rw [hbyte, if_pos rfl, BitVec.toNat_ofNat, Nat.mod_eq_of_lt (by omega)]

/-! ### Values out of range -/

/-- A command that completes with FAULT = 0 keeps the status and responds (0, data). -/
theorem exec_completes_keeps_status {s s' : State} {i : Instr} (hf : s.fault = false)
    (h : s.Completes i s') : ∃ t, exec i s = .next t ∧ t.fault = false ∧ t.fcode = s.fcode
      ∧ t.responses = s.responses ++ [⟨false, completionData i⟩] :=
  ⟨_, exec_of_completes hf h, h.fault_eq.trans hf, h.fcode_eq,
    by rw [State.respond_responses, h.responses_eq]⟩

/-- Settles O30: SETCMD saturates, P2R clamps and ENC truncates, so each of the three effects
completes. -/
theorem outOfRangeValuesNeverFault : Obligations.OutOfRangeValuesNeverFault := by
  rintro i s hf (⟨arg, rfl⟩ | ⟨fld, arg, f, rfl, hentry, hkind⟩ | ⟨fld, arg, rfl, hlt⟩)
  · exact exec_completes_keeps_status hf (.setcmd arg)
  · obtain ⟨m, henc⟩ := enc_ok_of_getElem? hentry (p2r f arg.toInt) s.frame
    refine exec_completes_keeps_status hf (.encp (m := m) ?_)
    rw [encodePhysical_of_field (fieldAt_of_getElem? hentry),
      encPhysical_of_rawOf_ok (rawOf_numeric hkind _ _), henc]
  · have hentry := List.getElem?_eq_getElem hlt
    obtain ⟨m, henc⟩ := enc_ok_of_getElem? hentry arg.toNat s.frame
    refine exec_completes_keeps_status hf (.encu (m := m) ?_)
    rw [encodeRaw_of_field (fieldAt_of_getElem? hentry), henc]

/-! ### RENDER -/

/-- ENCP of a tag on `FIELDS[0]` writes what ENCU of it writes. -/
theorem encodePhysical_zero {arg : Operand} (h : arg.toNat < 2) (m : Memory) :
    encodePhysical 0 arg m = enc Config.brakePedalEnCtrl arg.toNat m := by
  rw [encodePhysical_of_field (f := Config.brakePedalEnCtrl) rfl,
    encPhysical_of_rawOf_ok (rawOf_brakePedalEnCtrl h _)]

/-- ENCP of a value of CMD on `FIELDS[1]` writes what ENCU of it writes. -/
theorem encodePhysical_one_cmd (v : BitVec 8) (m : Memory) :
    encodePhysical 1 (v.setWidth 32) m = enc Config.brakePedalCmd v.toNat m := by
  have hnat : (v.setWidth 32).toNat = v.toNat := BitVec.toNat_setWidth_of_le (by decide)
  have hv : (v.setWidth 32).toInt = v.toNat := by
    rw [BitVec.toInt_eq_toNat_of_lt (by omega), hnat]
  rw [encodePhysical_of_field (f := Config.brakePedalCmd) rfl,
    encPhysical_of_rawOf_ok (rawOf_numeric rfl _ _), hv, p2r_brakePedalCmd_cmd]

theorem exec_render_ok {s : State} (hf : s.fault = false) :
    ∃ m, renderFrame s = .ok m ∧ exec .render s = .next ((s.setFrame m).respond false 0) := by
  obtain ⟨_, _, m, _, _, _, hrender⟩ := renderFrame_writes_both_fields s
  exact ⟨m, hrender, exec_of_completes hf (.render hrender)⟩

/-- Settles O31: RENDER's three buffers `z`, `e` and `m` are the ones that RESET and the two field writes
leave one after the other, by ENCP and by ENCU alike. -/
theorem renderEqualsResetThenFieldWrites : Obligations.RenderEqualsResetThenFieldWrites := by
  intro s hf
  obtain ⟨z, e, m, hz, ⟨hen, _⟩, ⟨hcmd, _⟩, hrender⟩ := renderFrame_writes_both_fields s
  have henNat : (s.en.setWidth 32).toNat = s.en.toNat := BitVec.toNat_setWidth_of_le (by decide)
  have hcmdNat : (s.cmd.setWidth 32).toNat = s.cmd.toNat := BitVec.toNat_setWidth_of_le (by decide)
  have hencp0 : encodePhysical 0 (s.en.setWidth 32) z = .ok e := by
    rw [encodePhysical_zero (henNat ▸ s.en.isLt), henNat, hen]
  have hencp1 : encodePhysical 1 (s.cmd.setWidth 32) e = .ok m := by
    rw [encodePhysical_one_cmd, hcmd]
  have hencu0 : encodeRaw 0 (s.en.setWidth 32) z = .ok e := by
    rw [encodeRaw_of_field (f := Config.brakePedalEnCtrl) rfl, henNat, hen]
  have hencu1 : encodeRaw 1 (s.cmd.setWidth 32) e = .ok m := by
    rw [encodeRaw_of_field (f := Config.brakePedalCmd) rfl, hcmdNat, hcmd]
  exact ⟨_, _, _, _, _, _, exec_of_completes hf (.render hrender), exec_of_completes hf (.reset hz),
    exec_of_completes hf (.encp hencp0), exec_of_completes hf (.encp hencp1), rfl,
    exec_of_completes hf (.encu hencu0), exec_of_completes hf (.encu hencu1), rfl⟩

/-! ### Writing the same buffer again -/

/-- Frame bits determine the bytes of the buffer. -/
theorem Memory.byte_eq_of_bit_eq {m m' : Memory}
    (h : ∀ b, b < 8 * Config.frameLen → m.bit b = m'.bit b) {k : Nat} (hk : k < Config.frameLen) :
    m.byte k = m'.byte k := by
  apply BitVec.eq_of_getLsbD_eq
  intro i hi
  rw [← m.bit_eq_getLsbD_byte hk hi, ← m'.bit_eq_getLsbD_byte hk hi, h _ (by omega)]

/-- ENC that completes wrote a field that fits. -/
theorem fieldWritten_of_enc {f : FieldSpec} {raw : Nat} {m m' : Memory} (h : enc f raw m = .ok m') :
    neededBytes f ≤ Config.frameLen ∧ FieldWritten f raw m m' := by
  rcases enc_cases f raw m with ⟨_, henc⟩ | ⟨hfit, henc⟩ <;> rw [henc] at h <;> cases h
  exact ⟨hfit, fieldWritten_setValue f raw m⟩

/-- A field written once more with the same value leaves every byte as it is (40_codec.md R77 (d)). -/
theorem FieldWritten.byte_again {f : FieldSpec} {raw : Nat} {m m₁ m₂ : Memory}
    (h₁ : FieldWritten f raw m m₁) (h₂ : FieldWritten f raw m₁ m₂)
    (hfit : neededBytes f ≤ Config.frameLen) (k : Nat) : m₂.byte k = m₁.byte k := by
  obtain ⟨hbits₁, _⟩ := h₁
  obtain ⟨hbits₂, hbytes₂⟩ := h₂
  by_cases hk : k < Config.frameLen
  · refine Memory.byte_eq_of_bit_eq (fun b hb => ?_) hk
    rw [hbits₂ b hb, hbits₁ b hb]
    split <;> rfl
  · have hspan := firstByte_add_spanBytes f
    exact hbytes₂ k (.inr (by omega))

/-- A buffer operation that is ENC of one value into one field of the table, whatever the buffer. -/
def WritesField (op : Memory → Except Raise Memory) : Prop :=
  ∃ f ∈ Config.fields.entries, ∃ raw, ∀ m, op m = enc f raw m

theorem encodeRaw_writesField {fld : FieldIndex} {arg : Operand} {m m' : Memory}
    (h : encodeRaw fld arg m = .ok m') : WritesField (encodeRaw fld arg) := by
  rcases fieldAt_entry_or_fieldIndex fld with ⟨f, hentry, hfield⟩ | hfield
  · exact ⟨f, List.mem_of_getElem? hentry, _, encodeRaw_of_field hfield arg⟩
  · rw [encodeRaw_of_error hfield] at h
    cases h

theorem encodePhysical_writesField {fld : FieldIndex} {arg : Operand} {m m' : Memory}
    (h : encodePhysical fld arg m = .ok m') : WritesField (encodePhysical fld arg) := by
  rcases fieldAt_entry_or_fieldIndex fld with ⟨f, hentry, hfield⟩ | hfield
  · have hop := encodePhysical_of_field hfield arg
    cases hraw : rawOf f arg.toInt arg.toNat with
    | ok raw =>
      exact ⟨f, List.mem_of_getElem? hentry, raw,
        fun m => (hop m).trans (encPhysical_of_rawOf_ok hraw m)⟩
    | error e =>
      rw [hop, encPhysical_of_rawOf_error hraw] at h
      cases h
  · rw [encodePhysical_of_error hfield] at h
    cases h

theorem WritesField.byte_again {op : Memory → Except Raise Memory} (hop : WritesField op)
    {m m₁ m₂ : Memory} (h₁ : op m = .ok m₁) (h₂ : op m₁ = .ok m₂) (k : Nat) :
    m₂.byte k = m₁.byte k := by
  obtain ⟨f, _, raw, hop⟩ := hop
  rw [hop] at h₁ h₂
  obtain ⟨hfit, hwritten₁⟩ := fieldWritten_of_enc h₁
  obtain ⟨_, hwritten₂⟩ := fieldWritten_of_enc h₂
  exact hwritten₁.byte_again hwritten₂ hfit k

/-- A command completed twice in a row leaves FRAME as after the first time. -/
theorem State.Completes.frame_again {s s₁ s₂ : State} {i : Instr} {data : BitVec 32}
    (h₁ : s.Completes i s₁) (h₂ : (s₁.respond false data).Completes i s₂) (k : Nat) :
    s₂.frame.byte k = s₁.frame.byte k := by
  cases h₁ with
  | reset hm₁ =>
    cases h₂ with
    | reset hm₂ =>
      simp only [State.setFrame_frame, byte_of_zeroFrame hm₂, byte_of_zeroFrame hm₁,
        State.respond_frame]
      split <;> rfl
  | render hm₁ =>
    cases h₂ with
    | render hm₂ =>
      simp only [State.setFrame_frame, byte_of_renderFrame hm₂, byte_of_renderFrame hm₁,
        State.respond_frame, State.respond_en, State.respond_cmd, State.setFrame_en,
        State.setFrame_cmd]
      split_ifs <;> rfl
  | encu hm₁ => cases h₂ with | encu hm₂ => exact (encodeRaw_writesField hm₁).byte_again hm₁ hm₂ k
  | encp hm₁ =>
    cases h₂ with | encp hm₂ => exact (encodePhysical_writesField hm₁).byte_again hm₁ hm₂ k
  | seten | setcmd | getper | getid => cases h₂; rfl

/-- Settles O36: after a fault the second command is refused, and a command that completes writes the
same bytes again. -/
theorem frameWritersAreIdempotent : Obligations.FrameWritersAreIdempotent := by
  intro i s t u hf _ ht hu k
  cases State.Runs.of_exec ht with
  | refused hfault => rw [hf] at hfault; cases hfault
  | faulted _ c =>
    cases (exec_faulted (State.takeFault_fault s c) i).symm.trans hu
    rfl
  | completed _ h₁ =>
    cases State.Runs.of_exec hu with
    | refused | faulted => rfl
    | completed _ h₂ => exact h₁.frame_again h₂ k

/-- Settles O32: the eight bytes are given by EN and CMD (`byte_of_renderFrame`), and RENDER is
idempotent (O36). -/
theorem renderedBytesDependOnTheLogicalStateOnly :
    Obligations.RenderedBytesDependOnTheLogicalStateOnly := by
  refine ⟨fun s s' t t' hen hcmd hf hf' ht ht' k hk => ?_, fun s t u hf ht hu =>
    frameWritersAreIdempotent .render s t u hf (.inr (.inl rfl)) ht hu⟩
  obtain ⟨m, hm, hexec⟩ := exec_render_ok hf
  obtain ⟨m', hm', hexec'⟩ := exec_render_ok hf'
  cases hexec.symm.trans ht
  cases hexec'.symm.trans ht'
  simp only [State.respond_frame, State.setFrame_frame, byte_of_renderFrame hm,
    byte_of_renderFrame hm', hen, hcmd, if_pos hk]

/-! ### The rendered frame -/

/-- With CMD in 0..100 the marshalled buffer is a rendered frame (20_memory.md R37). -/
theorem rendered_of_renderFrame {s : State} {m : Memory} (h : renderFrame s = .ok m)
    (hcmd : s.cmd.toNat ≤ 100) : m.rendered := by
  have hbyte := byte_of_renderFrame h
  refine ⟨?_, ?_, fun k hk => ?_⟩
  · have hen := s.en.isLt
    rw [hbyte, if_neg (by decide), if_pos rfl, BitVec.toNat_setWidth_of_le (by decide)]
    omega
  · rwa [hbyte, if_pos rfl]
  · rw [hbyte, if_neg (by omega), if_neg (by omega), if_pos k.isLt]

/-- Settles O33: RENDER completes with a rendered frame, or is refused, which keeps FRAME and so
frame_q. -/
theorem renderAlwaysProducesAWellFormedFrame : Obligations.RenderAlwaysProducesAWellFormedFrame := by
  intro s hcmd
  refine ⟨fun hf => ?_, fun hf => ⟨_, exec_faulted hf .render, rfl, rfl⟩⟩
  obtain ⟨m, hm, hexec⟩ := exec_render_ok hf
  exact ⟨_, hexec, hf, rendered_of_renderFrame hm hcmd⟩

/-- Settles O34: with EN = 0 and CMD = 0 the two field bytes are zero too. -/
theorem renderAfterResetIsAllZero : Obligations.RenderAfterResetIsAllZero := by
  obtain ⟨m, hm, hexec⟩ := exec_render_ok State.reset_fault
  refine ⟨_, hexec, rfl, fun k hk => ?_⟩
  rw [State.respond_frame, State.setFrame_frame, byte_of_renderFrame hm, if_pos hk]
  split_ifs <;> rfl

/-! ### The setters -/

/-- Settles O35: each setter that completes writes one register by its operand alone. -/
theorem settersCommuteAndTheLaterWins : Obligations.SettersCommuteAndTheLaterWins := by
  intro s a b v w hf ha hb
  refine ⟨⟨_, _, _, _, exec_of_completes hf (.seten ha), exec_of_completes ?_ (.setcmd v),
      exec_of_completes hf (.setcmd v), exec_of_completes ?_ (.seten ha), rfl, rfl⟩,
    ⟨_, _, _, exec_of_completes hf (.seten ha), exec_of_completes ?_ (.seten hb),
      exec_of_completes hf (.seten hb), rfl⟩,
    _, _, _, exec_of_completes hf (.setcmd v), exec_of_completes ?_ (.setcmd w),
      exec_of_completes hf (.setcmd w), rfl⟩ <;>
    exact hf

end Sys2Proof.Machine
end

section
/-! Runs (10_state.md R29, 70_reset_and_hazards.md R146 to R152): O51, O52, O50, O53 and O54. The induction
over a run is packaged once: what every step keeps, every run keeps. -/

namespace Sys2Proof.Machine

/-! ### The induction over a run -/

/-- A run answers a next state, and keeps what every step keeps. -/
theorem run_of_steps_keep {P : State → Prop} (hkeep : ∀ {s t : State}, s.Steps t → P s → P t)
    (k : Nat) {s : State} (hs : P s) : ∃ t : State, Sys2Proof.core.run k s = .next t ∧ P t := by
  induction k generalizing s with
  | zero => exact ⟨s, run_zero s, hs⟩
  | succ k ih =>
    obtain ⟨u, hstep, hsteps⟩ := step_steps s
    obtain ⟨t, hrun, ht⟩ := ih (hkeep hsteps hs)
    exact ⟨t, (run_next hstep).trans hrun, ht⟩

theorem keeps_of_run {P : State → Prop} (hkeep : ∀ {s t : State}, s.Steps t → P s → P t)
    {k : Nat} {s t : State} (hrun : Sys2Proof.core.run k s = .next t) (hs : P s) : P t := by
  obtain ⟨t', hrun', ht'⟩ := run_of_steps_keep hkeep k hs
  cases hrun'.symm.trans hrun
  exact ht'

/-- The last step of a run. -/
theorem run_succ {k : Nat} {s t : State} (h : Sys2Proof.core.run k s = .next t) :
    Sys2Proof.core.run (k + 1) s = step t := by
  induction k generalizing s with
  | zero =>
    obtain rfl : s = t := Host.Outcome.next.inj ((run_zero s).symm.trans h)
    obtain ⟨u, hstep, _⟩ := step_steps s
    exact (run_next hstep).trans ((run_zero u).trans hstep.symm)
  | succ k ih =>
    obtain ⟨u, hstep, _⟩ := step_steps s
    rw [run_next hstep] at h ⊢
    exact ih h

/-! ### What a step does to the lists of events and responses -/

theorem State.Accepts.pending_eq {s t : State} {w : CommandWord} (h : s.Accepts w t) :
    t.pending = s.pending := by
  cases h with
  | refused | faulted => rfl
  | completed _ _ h => exact h.pending_eq

theorem State.Accepts.responses_length {s t : State} {w : CommandWord} (h : s.Accepts w t) :
    t.responses.length = s.responses.length + 1 := by
  cases h with
  | refused | faulted => simp
  | completed _ _ h => simp [h.responses_eq]

/-- A step takes one event, when there is one. -/
theorem State.Steps.pending_eq {s t : State} (h : s.Steps t) : t.pending = s.pending.tail := by
  cases h with
  | waits hp => rw [hp, List.tail_nil]
  | accepts hp h => rw [h.pending_eq, hp, List.tail_cons, State.setPending_pending]
  | resets hp => rw [hp]; rfl

/-- The responses given and the commands still to come, together the responses of the whole run. -/
def State.dueResponses (s : State) : Nat :=
  s.responses.length + (s.pending.filter PortEvent.isCommand).length

/-- A step turns a command into its response, and gives none for a hardware reset (30_encoding.md
R59). -/
theorem State.Steps.dueResponses_eq {s t : State} (h : s.Steps t) :
    t.dueResponses = s.dueResponses := by
  cases h with
  | waits => rfl
  | accepts hp h =>
    rw [State.dueResponses, State.dueResponses, h.responses_length, h.pending_eq, hp,
      List.filter_cons_of_pos rfl, List.length_cons, State.setPending_pending,
      State.setPending_responses]
    omega
  | resets hp =>
    rw [State.dueResponses, State.dueResponses, hp, List.filter_cons_of_neg Bool.false_ne_true]
    rfl

theorem pending_of_run {k : Nat} {s t : State} (h : Sys2Proof.core.run k s = .next t) :
    t.pending = s.pending.drop k := by
  induction k generalizing s with
  | zero => cases (run_zero s).symm.trans h; rfl
  | succ k ih =>
    obtain ⟨u, hstep, hsteps⟩ := step_steps s
    rw [ih ((run_next hstep).symm.trans h), hsteps.pending_eq, List.drop_tail]

/-- Settles O52: the run takes one event a step, and every step keeps the responses given plus the
commands to come, of which none are left. -/
theorem everyRunTakesAllEvents : Obligations.EveryRunTakesAllEvents := by
  intro s
  obtain ⟨t, hrun, hdue⟩ := run_of_steps_keep (P := fun t => t.dueResponses = s.dueResponses)
    (fun h => h.dueResponses_eq.trans) s.pending.length rfl
  have hpending : t.pending = [] := by rw [pending_of_run hrun, List.drop_length]
  refine ⟨t, hrun, hpending, ?_⟩
  rwa [State.dueResponses, hpending] at hdue

/-! ### The faulted block -/

/-- A faulted state with commands only to come, whose block is `b`. -/
def FrozenAt (b : Block) (s : State) : Prop :=
  s.fault = true ∧ (∀ e ∈ s.pending, e.isCommand = true) ∧ s.block = b

theorem FrozenAt.of_steps {b : Block} {s t : State} (h : s.Steps t) (hs : FrozenAt b s) :
    FrozenAt b t := by
  obtain ⟨hf, hcommands, hblock⟩ := hs
  cases h with
  | waits => exact ⟨hf, hcommands, hblock⟩
  | resets hp => exact absurd (hcommands (.hardwareReset _) (hp ▸ List.mem_cons_self)) Bool.false_ne_true
  | accepts hp h =>
    cases h with
    | refused => exact ⟨hf, fun e he => hcommands e (hp ▸ List.mem_cons_of_mem _ he), hblock⟩
    | faulted hf' | completed hf' => exact absurd (hf.symm.trans hf') Bool.true_eq_false.mp

/-- Settles O51: with FAULT = 1 and commands only to come, every step waits or refuses, which keeps the
tuple and the premise. -/
theorem faultedBlockIsFrozenAlongARun : Obligations.FaultedBlockIsFrozenAlongARun := by
  intro s k hf hcommands
  obtain ⟨t, hrun, _, _, hblock⟩ := run_of_steps_keep FrozenAt.of_steps k ⟨hf, hcommands, rfl⟩
  exact ⟨t, hrun, hblock⟩

/-! ### Reachable states -/

theorem State.launch_inv (es : List PortEvent) : (State.launch es).Inv :=
  State.Inv.congr_block resetStateMeetsTheInvariant rfl

theorem State.Reachable.inv {s : State} (h : s.Reachable) : s.Inv := by
  obtain ⟨es, k, hrun⟩ := h
  exact keeps_of_run State.Steps.inv hrun (State.launch_inv es)

/-- A command that ends with FAULT = 0 completed. -/
theorem completes_of_exec {s t : State} {i : Instr} (h : exec i s = .next t) (ht : t.fault = false) :
    ∃ s', s.Completes i s' ∧ t = s'.respond false (completionData i) := by
  cases State.Runs.of_exec h with
  | refused hf => exact absurd (hf.symm.trans ht) Bool.true_eq_false.mp
  | faulted => cases ht
  | completed _ hcompletes => exact ⟨_, hcompletes, rfl⟩

/-- A RESET that ends with FAULT = 0 leaves the zeroed buffer. -/
theorem eq_of_exec_reset {s t : State} (h : exec .reset s = .next t) (ht : t.fault = false) :
    ∃ z, zeroFrame s.frame = .ok z ∧ t = (s.setFrame z).respond false 0 := by
  obtain ⟨_, hcompletes, rfl⟩ := completes_of_exec h ht
  cases hcompletes with
  | reset hz => exact ⟨_, hz, rfl⟩

/-- A RENDER that ends with FAULT = 0 leaves the marshalled buffer. -/
theorem eq_of_exec_render {s t : State} (h : exec .render s = .next t) (ht : t.fault = false) :
    ∃ m, renderFrame s = .ok m ∧ t = (s.setFrame m).respond false 0 := by
  obtain ⟨_, hcompletes, rfl⟩ := completes_of_exec h ht
  cases hcompletes with
  | render hm => exact ⟨_, hm, rfl⟩

/-- Settles O50: CMD and the status are the invariant's (O49), a faulted block refuses every command,
and RESET and RENDER that complete leave the bytes of O14 and O17. -/
theorem reachableStatesKeepTheStateRules : Obligations.ReachableStatesKeepTheStateRules := by
  intro s hs
  obtain ⟨hcmd, hstatus, _, _⟩ := hs.inv
  refine ⟨hcmd, BitVec.eq_zero_or_eq_one s.en, hstatus, fun hf i => ⟨_, exec_faulted hf i, rfl⟩,
    fun t ht htf => ?_, fun t ht htf k hk hlt => ?_⟩
  · obtain ⟨z, hz, rfl⟩ := eq_of_exec_reset ht htf
    exact Memory.whole_eq_zero fun k hk => (byte_of_zeroFrame hz k).trans (if_pos hk)
  · obtain ⟨m, hm, rfl⟩ := eq_of_exec_render ht htf
    exact (byte_of_renderFrame hm k).trans
      (by rw [if_neg (by omega), if_neg (by omega), if_pos hlt])

/-! ### A run that ends in RENDER -/

/-- A word that a host's event issues is decoded to its command. -/
theorem command_of_issues {e : PortEvent} {i : Instr} (h : e.issues i = true) :
    ∃ c, e = .command c ∧ decode c.word = .ok i := by
  cases e with
  | hardwareReset p => cases h
  | command c =>
    refine ⟨c, rfl, ?_⟩
    have hsome : (decode c.word).toOption = some i := of_decide_eq_true h
    cases hdecode : decode c.word with
    | error e => rw [hdecode] at hsome; cases hsome
    | ok j => rw [hdecode] at hsome; cases hsome; rfl

theorem eq_append_of_endsInRender {es : List PortEvent} (h : endsInRender es = true) :
    ∃ (init : List PortEvent) (c : CommandPorts),
      es = init ++ [.command c] ∧ decode c.word = .ok .render := by
  unfold endsInRender at h
  split at h
  case h_1 e hlast =>
    obtain ⟨c, rfl, hc⟩ := command_of_issues h
    obtain ⟨init, rfl⟩ := List.getLast?_eq_some_iff.1 hlast
    exact ⟨init, c, rfl, hc⟩
  case h_2 => cases h

/-- Settles O53: the events before the last lead to a state that meets the invariant, from which the last
step is a RENDER that completes. -/
theorem runEndingInRenderLeavesARenderedFrame :
    Obligations.RunEndingInRenderLeavesARenderedFrame := by
  intro es t hends hrun htf
  obtain ⟨init, c, rfl, hc⟩ := eq_append_of_endsInRender hends
  obtain ⟨u, hinit, hinv⟩ := run_of_steps_keep State.Steps.inv init.length
    (State.launch_inv (init ++ [.command c]))
  have hpending : u.pending = [.command c] :=
    (pending_of_run hinit).trans List.drop_left
  have hlast : exec .render (u.setPending []) = .next t := by
    rw [← step_of_decode_ok hpending hc, ← run_succ hinit, ← hrun, State.runAll, State.launch,
      State.setPending_pending, List.length_append, List.length_singleton]
  obtain ⟨m, hm, rfl⟩ := eq_of_exec_render hlast htf
  obtain ⟨hcmd, _, _, _⟩ := hinv
  exact ⟨rendered_of_renderFrame hm hcmd, byte_of_renderFrame hm 0, byte_of_renderFrame hm 1⟩

/-! ### A frame built by hand -/

/-- ENCU and ENCP: the two commands that write a field. -/
def IsFieldWrite (i : Instr) : Prop :=
  (∃ fld arg, i = .encu fld arg) ∨ ∃ fld arg, i = .encp fld arg

/-- The fields of the table cover the bytes 0 and 1. -/
theorem WritesField.byte_of_two_le {op : Memory → Except Raise Memory} (hop : WritesField op)
    {m m' : Memory} (h : op m = .ok m') {k : Nat} (hk : 2 ≤ k) : m'.byte k = m.byte k := by
  obtain ⟨f, hf, raw, hop⟩ := hop
  have hcovered : ∀ f ∈ Config.fields.entries, neededBytes f ≤ 2 := by decide
  have hneed := hcovered f hf
  have hspan := firstByte_add_spanBytes f
  obtain ⟨_, _, hbytes⟩ := fieldWritten_of_enc (hop m ▸ h)
  exact hbytes k (.inr (by omega))

theorem State.Completes.byte_of_fieldWrite {s s' : State} {i : Instr} (h : s.Completes i s')
    (hi : IsFieldWrite i) {k : Nat} (hk : 2 ≤ k) : s'.frame.byte k = s.frame.byte k := by
  rcases hi with ⟨fld, arg, rfl⟩ | ⟨fld, arg, rfl⟩
  · cases h with | encu hm => exact (encodeRaw_writesField hm).byte_of_two_le hm hk
  · cases h with | encp hm => exact (encodePhysical_writesField hm).byte_of_two_le hm hk

/-- The event is the command word of a field write. -/
def PortEvent.PresentsFieldWrite (e : PortEvent) : Prop :=
  ∃ c i, e = .command c ∧ decode c.word = .ok i ∧ IsFieldWrite i

/-- A state with field writes only to come, whose bytes that no field covers are zero. -/
def HandBuilding (s : State) : Prop :=
  (∀ e ∈ s.pending, e.PresentsFieldWrite) ∧ ∀ k, 2 ≤ k → k < Config.frameLen → s.frame.byte k = 0

theorem State.Accepts.byte_of_fieldWrite {s t : State} {w : CommandWord} {i : Instr}
    (h : s.Accepts w t) (hw : decode w = .ok i) (hi : IsFieldWrite i) {k : Nat} (hk : 2 ≤ k) :
    t.frame.byte k = s.frame.byte k := by
  cases h with
  | refused | faulted => rfl
  | completed _ hj hcompletes =>
    cases hj.symm.trans hw
    exact hcompletes.byte_of_fieldWrite hi hk

theorem HandBuilding.of_steps {s t : State} (h : s.Steps t) (hs : HandBuilding s) :
    HandBuilding t := by
  obtain ⟨hwrites, hzero⟩ := hs
  refine ⟨fun e he => hwrites e (List.mem_of_mem_tail (h.pending_eq ▸ he)), fun k hk hlt => ?_⟩
  cases h with
  | waits => exact hzero k hk hlt
  | resets => rfl
  | accepts hp haccepts =>
    obtain ⟨c, i, hc, hdecode, hi⟩ := hwrites _ (hp ▸ List.mem_cons_self)
    cases hc
    exact (haccepts.byte_of_fieldWrite hdecode hi hk).trans (hzero k hk hlt)

/-- A hand build is RESET and then field writes. -/
theorem eq_reset_cons_of_handBuild {l : List Instr} (h : handBuild l = true) :
    ∃ writes, l = .reset :: writes ∧ ∀ i ∈ writes, IsFieldWrite i := by
  unfold handBuild at h
  split at h
  case h_1 writes =>
    refine ⟨writes, rfl, fun i hi => ?_⟩
    have hwrite := List.all_eq_true.1 (Bool.and_eq_true_iff.1 h).1 i hi
    cases i with
    | encu fld arg => exact .inl ⟨fld, arg, rfl⟩
    | encp fld arg => exact .inr ⟨fld, arg, rfl⟩
    | _ => cases hwrite
  case h_2 => cases h

theorem decode_portsOfWord_encode (i : Instr) : decode (portsOfWord (encode i)).word = .ok i := by
  rw [word_portsOfWord, decodeEncodeRoundTrip]

/-- Settles O54: RESET zeroes the buffer, and a field write reaches the bytes 0 and 1 only, whether it
completes, faults or is refused. -/
theorem handBuiltFrameIsZeroOutsideTheFields : Obligations.HandBuiltFrameIsZeroOutsideTheFields := by
  intro l s t hl hf hp hrun _
  obtain ⟨writes, rfl, hwrites⟩ := eq_reset_cons_of_handBuild hl
  rw [List.map_cons] at hp
  have hreset := (step_of_decode_ok hp (decode_portsOfWord_encode .reset)).trans
    (exec_of_completes (i := .reset) hf (.reset (zeroFrame_eq _)))
  rw [State.runAll, hp, List.length_cons, run_next hreset] at hrun
  refine (keeps_of_run HandBuilding.of_steps hrun ⟨fun e he => ?_, fun k _ hlt => ?_⟩).2
  · obtain ⟨i, hi, rfl⟩ := List.mem_map.1 he
    exact ⟨_, i, rfl, decode_portsOfWord_encode i, hwrites i hi⟩
  · exact (byte_of_zeroFrame (zeroFrame_eq s.frame) k).trans (if_pos hlt)

end Sys2Proof.Machine
end

section
/-! Laws of the codec for any FieldSpec: ENC (40_codec.md R77), O40; P2R is monotone (R71 (i)), O42; the
pedal field (R70), O43; and the span of a field (20_memory.md R34, R35), O45. -/

namespace Sys2Proof.Machine

/-! ### ENC -/

/-- Frame bits determine W. -/
theorem Memory.whole_eq_of_bit_eq {m m' : Memory}
    (h : ∀ b, b < 8 * Config.frameLen → m.bit b = m'.bit b) : m.whole = m'.whole :=
  Memory.value_congr fun _ _ hk => Memory.byte_eq_of_bit_eq h (by omega)

/-- `need <= FRAME_LEN` bounds the field's last bit (20_memory.md R35). -/
theorem neededBytes_le_frameLen_iff (f : FieldSpec) :
    neededBytes f ≤ Config.frameLen ↔ f.bitOffset + f.bitLength ≤ 8 * Config.frameLen := by
  unfold neededBytes
  omega

namespace FieldWritten

variable {f g : FieldSpec} {a b : Nat} {m m₁ m₂ m₃ m₄ : Memory}

/-- Of two writes of one field the later wins (40_codec.md R77 (d), (e)). -/
theorem whole_overwrite (h₁ : FieldWritten f a m m₁) (h₂ : FieldWritten f b m₁ m₂)
    (h₃ : FieldWritten f b m m₃) : m₂.whole = m₃.whole := by
  refine Memory.whole_eq_of_bit_eq fun k hk => ?_
  rw [h₂.1 k hk, h₃.1 k hk, h₁.1 k hk]
  split <;> rfl

/-- Writes of disjoint fields commute (40_codec.md R77 (f)). -/
theorem whole_comm
    (hdisjoint : f.bitOffset + f.bitLength ≤ g.bitOffset ∨ g.bitOffset + g.bitLength ≤ f.bitOffset)
    (h₁ : FieldWritten f a m m₁) (h₂ : FieldWritten g b m₁ m₂)
    (h₃ : FieldWritten g b m m₃) (h₄ : FieldWritten f a m₃ m₄) : m₂.whole = m₄.whole := by
  refine Memory.whole_eq_of_bit_eq fun k hk => ?_
  rw [h₂.1 k hk, h₄.1 k hk, h₁.1 k hk, h₃.1 k hk]
  by_cases hin : g.bitOffset ≤ k ∧ k < g.bitOffset + g.bitLength
  · rw [if_pos hin, if_neg (by omega), if_pos hin]
  · rw [if_neg hin, if_neg hin]

/-- The field reads back the raw value modulo 2^len (40_codec.md R77 (j)). -/
theorem readback (h : FieldWritten f a m m₁)
    (hfit : f.bitOffset + f.bitLength ≤ 8 * Config.frameLen) :
    m₁.whole / 2 ^ f.bitOffset % 2 ^ f.bitLength = a % 2 ^ f.bitLength := by
  apply Nat.eq_of_testBit_eq
  intro i
  rw [Nat.testBit_mod_two_pow, Nat.testBit_mod_two_pow, Nat.testBit_div_two_pow]
  by_cases hi : i < f.bitLength
  · have hbit := h.1 (i + f.bitOffset) (by omega)
    rw [if_pos (by omega), Nat.add_sub_cancel] at hbit
    rw [← hbit, Memory.bit]
  · rw [decide_eq_false hi, Bool.false_and, Bool.false_and]

end FieldWritten

/-- Settles O40: each law is one of `FieldWritten`, decided frame bit by frame bit. -/
theorem encLaws : Obligations.EncLaws := by
  intro f g a b m hf hg
  obtain ⟨ma, hma, ha⟩ := enc_writes_field a m hf
  obtain ⟨x, hx, hxa⟩ := enc_writes_field a ma hf
  obtain ⟨y, hy, hyb⟩ := enc_writes_field b ma hf
  obtain ⟨z, hz, hzb⟩ := enc_writes_field b m hf
  refine ⟨ma, hma, ⟨x, hx, ha.whole_overwrite hxa ha⟩, ⟨y, z, hy, hz, ha.whole_overwrite hyb hzb⟩,
    ha.readback ((neededBytes_le_frameLen_iff f).1 hf), fun hdisjoint => ?_⟩
  obtain ⟨u, hu, hug⟩ := enc_writes_field b ma hg
  obtain ⟨v, hv, hvg⟩ := enc_writes_field b m hg
  obtain ⟨w, hw, hwf⟩ := enc_writes_field a v hf
  exact ⟨u, v, w, hu, hv, hw, FieldWritten.whole_comm hdisjoint ha hug hvg hwf⟩

/-! ### P2R is monotone -/

theorem clamp_mono {v w lo hi : Int} (hlohi : lo ≤ hi) (h : v ≤ w) :
    clamp v lo hi ≤ clamp w lo hi := by
  unfold clamp
  split_ifs <;> omega

/-- Rounding over one denominator is monotone in the quotient: two quotients in the order opposite to
that of their nearest integers would be one tie, which rounds one way. -/
theorem roundQuotient_mono {n n' d : Int} (hd : d ≠ 0) (h : (n : ℚ) / d ≤ (n' : ℚ) / d) :
    roundQuotient n d ≤ roundQuotient n' d := by
  by_contra hlt
  have hgap : (roundQuotient n' d : ℚ) + 1 ≤ roundQuotient n d := by
    exact_mod_cast Int.add_one_le_of_lt (not_le.1 hlt)
  obtain ⟨hnear, _⟩ := roundQuotient_nearest n hd
  obtain ⟨hnear', _⟩ := roundQuotient_nearest n' hd
  have hlow := (abs_le.1 hnear).1
  have hhigh := (abs_le.1 hnear').2
  have hsame : (n : ℚ) / d = n' / d := by linarith
  have hn : n = n' := by
    have hcast := (div_left_inj' (Int.cast_ne_zero.2 hd)).1 hsame
    exact_mod_cast hcast
  exact hlt (hn ▸ le_rfl)

/-- P2R is monotone in its exact quotient. -/
theorem p2r_le_of_quotient_le {f : FieldSpec} {p p' : Int} (hprec : f.precision ≠ 0)
    (h : ((p : ℚ) - f.offset) / f.precision ≤ ((p' : ℚ) - f.offset) / f.precision) :
    p2r f p ≤ p2r f p' := by
  rw [← quotientNum_div_quotientDen, ← quotientNum_div_quotientDen] at h
  have hround := roundQuotient_mono (quotientDen_ne_zero hprec) h
  have hmax : (0 : Int) ≤ 2 ^ f.bitLength - 1 := Int.sub_nonneg.2 (one_le_pow₀ (by decide))
  have hclamp : (p2r f p : Int) ≤ p2r f p' := by
    rw [coe_p2r, coe_p2r]
    exact clamp_mono hmax hround
  exact_mod_cast hclamp

/-- Settles O42: the exact quotient is monotone for a positive precision and antitone for a negative
one. -/
theorem p2rIsMonotone : Obligations.P2rIsMonotone := by
  intro f p p' hp
  have hsub : (p : ℚ) - f.offset ≤ p' - f.offset := sub_le_sub_right (Int.cast_le.2 hp) _
  exact ⟨fun hpos => p2r_le_of_quotient_le hpos.ne' (div_le_div_of_nonneg_right hsub hpos.le),
    fun hneg => p2r_le_of_quotient_le hneg.ne (div_le_div_of_nonpos_of_le hneg.le hsub)⟩

/-! ### The pedal field and the span -/

/-- Settles O43: precision 1 and offset 0 leave the clamp to the field width. -/
theorem pedalFieldTransformIsTheIdentityClamp :
    Obligations.PedalFieldTransformIsTheIdentityClamp := by
  intro p
  exact coe_p2r_brakePedalCmd p

/-- A well-formed field has a bit (10_state.md R22 (a)). -/
theorem bitLength_pos_of_wellFormed {n : Nat} {f : FieldSpec} (h : f.wellFormed n = true) :
    1 ≤ f.bitLength := by
  simp only [FieldSpec.wellFormed, FieldSpec.lengthOk, Bool.and_eq_true, decide_eq_true_eq] at h
  obtain ⟨⟨⟨⟨⟨⟨⟨hpos, _⟩, _⟩, _⟩, _⟩, _⟩, _⟩, _⟩ := h
  exact hpos

/-- Settles O45: the span is arithmetic on the offset and the length, and a well-formed field has 1 to 64
bits. -/
theorem spanFitsTheBound : Obligations.SpanFitsTheBound := by
  intro f
  refine ⟨(firstByte_add_spanBytes f).symm, neededBytes_le_frameLen_iff f, fun hwf => ?_⟩
  have hspan := firstByte_add_spanBytes f
  have hfit : neededBytes f ≤ 8 := neededBytes_le_of_wellFormed hwf
  have hlen := bitLength_pos_of_wellFormed hwf
  refine ⟨?_, by omega⟩
  unfold spanBytes
  omega

end Sys2Proof.Machine
end
